-- ==== Sys2Proof/Word.lean ====
section
/-! DEFINITION. The word types of the cs421 core: everything the spec treats as bits has a width here (00_scope.md R5). -/

namespace Sys2Proof

/-- A register value, an immediate or a memory byte: 8 bits, unsigned (`XLEN`, R5, R10). -/
abbrev Byte := BitVec 8

/-- An instruction word, `ir` or `pc`: 16 bits, unsigned (`ILEN`, `PCLEN`, R5). -/
abbrev Word := BitVec 16

/-- The branch target field: 5 bits, unsigned (`TGTBITS`, R5, R56). -/
abbrev Target := BitVec 5

/-- A register number 0 to 15; a 4-bit field names exactly these (R10, R11). -/
abbrev RegIdx := Fin 16

end Sys2Proof
end

