-- ==== Sys2Proof/Syntax.lean ====
section
/-! DEFINITION. The instructions: one constructor per row of spec/opcode_table.json, operands in the order of the
assembly text (30_encoding.md R50 to R54, R62, R65). -/

namespace Sys2Proof

/-- A decoded instruction: "a tagged variant ... each carrying its operand fields" (R62). -/
inductive Instr where
  /-- LOADI, opcode 0, format I (R51, R85). -/
  | loadi (rd : RegIdx) (imm8 : Byte)
  /-- ADD, opcode 1, format R (R52, R87). -/
  | add (rd rs1 rs2 : RegIdx)
  /-- AND, opcode 2, format R (R52, R88). -/
  | and (rd rs1 rs2 : RegIdx)
  /-- OR, opcode 3, format R (R52, R89). -/
  | or (rd rs1 rs2 : RegIdx)
  /-- XOR, opcode 4, format R (R52, R90). -/
  | xor (rd rs1 rs2 : RegIdx)
  /-- PRINT, opcode 5, format S; the register is read (R53, R92). -/
  | print (r : RegIdx)
  /-- READ, opcode 6, format S; the register is written (R53, R93). -/
  | read (r : RegIdx)
  /-- BLT, opcode 7, format B; two registers read, none written (R54, R97). -/
  | blt (ra rb : RegIdx) (target5 : Target)
  deriving DecidableEq, Repr

/-- The opcode of each variant, "in this fixed order" (R49). -/
def Instr.opcode : Instr → Nat
  | .loadi _ _ => 0
  | .add _ _ _ => 1
  | .and _ _ _ => 2
  | .or _ _ _ => 3
  | .xor _ _ _ => 4
  | .print _ => 5
  | .read _ => 6
  | .blt _ _ _ => 7

end Sys2Proof
end

