-- ==== Sys2Proof/WellFormed.lean ====
section
/-! DEFINITION. Which instructions an assembler accepts (30_encoding.md R56, R68). Register numbers, immediates and the
width of a target are in range by their types (10_state.md R11, R55); the one check left is the target's evenness. -/

namespace Sys2Proof

/-- Every operand has a legal value. Of a BLT's 32 targets "only its even values 0, 2, ..., 30 are legal; the 16 odd values
are encodable and fault when executed" (R56). An ill-formed instruction still encodes, decodes and executes. -/
def Instr.wellFormed : Instr → Bool
  | .loadi _ _ => true
  | .add _ _ _ => true
  | .and _ _ _ => true
  | .or _ _ _ => true
  | .xor _ _ _ => true
  | .print _ => true
  | .read _ => true
  | .blt _ _ target5 => target5.toNat % 2 == 0

/-- `wellFormed` as a proposition `decide` runs on. -/
abbrev Instr.WellFormed (i : Instr) : Prop := i.wellFormed = true

end Sys2Proof
end

