-- ==== Sys2Proof/Decode.lean ====
section
/-! DEFINITION. The bit-field extractor, byte order, the decoder and the encoder (30_encoding.md, 20_memory.md R34). -/

namespace Sys2Proof

/-- Bits `a..b` of `w`, MSB-numbered and inclusive, right-aligned: `floor(w / 2^(15-b)) mod 2^(b-a+1)` (R46). It is defined
on valid index pairs only, so the pairs U4 leaves open cannot be written (R47). -/
def extractBits (w : Word) (a b : Nat) (_valid : a ≤ b ∧ b ≤ 15 := by decide) : Nat :=
  w.toNat / 2 ^ (15 - b) % 2 ^ (b - a + 1)

/-- The word of two adjacent bytes, "high-order byte at the lower address" (R34). -/
def wordOfBytes (hi lo : Byte) : Word := BitVec.ofNat 16 (hi.toNat * 256 + lo.toNat)

/-- The byte stored at the lower address (R34). -/
def highByte (w : Word) : Byte := BitVec.ofNat 8 (w.toNat / 256)

/-- The byte stored at the higher address (R34). -/
def lowByte (w : Word) : Byte := BitVec.ofNat 8 (w.toNat % 256)

/-- The register field `w{3..6}` = `w[12:9]`, the first register operand of every format (R50). -/
def regFieldA (w : Word) : RegIdx := Fin.ofNat 16 (extractBits w 3 6)

/-- The register field `w{7..10}` = `w[8:5]` of formats R and B (R52, R54). -/
def regFieldB (w : Word) : RegIdx := Fin.ofNat 16 (extractBits w 7 10)

/-- The destination field `w{11..14}` = `w[4:1]` of format R (R52). -/
def regFieldC (w : Word) : RegIdx := Fin.ofNat 16 (extractBits w 11 14)

/-- The immediate `w{7..14}` = `w[8:1]` of format I, used as it stands (R51, R55). -/
def immField (w : Word) : Byte := BitVec.ofNat 8 (extractBits w 7 14)

/-- The target `w{11..15}` = `w[4:0]` of format B (R54, R56). -/
def targetField (w : Word) : Target := BitVec.ofNat 5 (extractBits w 11 15)

/-- Why decoding stops. -/
inductive DecodeError where
  /-- "an opcode value with no assigned mnemonic" (R103); raised by `decode`, which never reaches it (R57). Safe. -/
  | invalidOpcode
  /-- Fewer than 2 bytes given to `decodeBytes`; the engine never does so, it fetches whole words (R35). Safe. -/
  | truncatedInstruction
  deriving DecidableEq, Repr

/-- The decoder of R62: it reads nothing but the word. The last arm is the table miss the spec asks to fail by name;
no word reaches it (R57, R103). -/
def decode (w : Word) : Except DecodeError Instr :=
  match extractBits w 0 2 with
  | 0 => .ok (.loadi (regFieldA w) (immField w))
  | 1 => .ok (.add (regFieldC w) (regFieldA w) (regFieldB w))
  | 2 => .ok (.and (regFieldC w) (regFieldA w) (regFieldB w))
  | 3 => .ok (.or (regFieldC w) (regFieldA w) (regFieldB w))
  | 4 => .ok (.xor (regFieldC w) (regFieldA w) (regFieldB w))
  | 5 => .ok (.print (regFieldA w))
  | 6 => .ok (.read (regFieldA w))
  | 7 => .ok (.blt (regFieldA w) (regFieldB w) (targetField w))
  | _ => .error .invalidOpcode

/-- Decode the first instruction of a byte sequence: its first two bytes, big-endian, and the rest (R34, R45). -/
def decodeBytes : List Byte → Except DecodeError (Instr × List Byte)
  | hi :: lo :: rest =>
    match decode (wordOfBytes hi lo) with
    | .ok i => .ok (i, rest)
    | .error e => .error e
  | _ => .error .truncatedInstruction

/-- What the decoder reads from an instruction whose bits are `w`, as spec/opcode_table.json numbers them: one 16-bit word,
laid out high byte first (R34, R45). -/
def decodeTableWord (nbits w : Nat) : Option Instr :=
  let word : Word := BitVec.ofNat 16 (w % 2 ^ nbits)
  match decodeBytes [highByte word, lowByte word] with
  | .ok (i, _) => some i
  | .error _ => none

/-- The word of format I (R51, R68). -/
def encodeI (opcode : Nat) (rd : RegIdx) (imm8 : Byte) : Word :=
  BitVec.ofNat 16 (opcode * 8192 + rd.val * 512 + imm8.toNat * 2)

/-- The word of format R: the destination is the last field (R52, R68). -/
def encodeR (opcode : Nat) (rd rs1 rs2 : RegIdx) : Word :=
  BitVec.ofNat 16 (opcode * 8192 + rs1.val * 512 + rs2.val * 32 + rd.val * 2)

/-- The word of format S (R53, R68). -/
def encodeS (opcode : Nat) (r : RegIdx) : Word :=
  BitVec.ofNat 16 (opcode * 8192 + r.val * 512)

/-- The word of format B (R54, R68). -/
def encodeB (opcode : Nat) (ra rb : RegIdx) (target5 : Target) : Word :=
  BitVec.ofNat 16 (opcode * 8192 + ra.val * 512 + rb.val * 32 + target5.toNat)

/-- The encoder of R68; it writes 0 in every ignored bit (R59), and is defined for a BLT with an odd target too. -/
def encode : Instr → Word
  | .loadi rd imm8 => encodeI 0 rd imm8
  | .add rd rs1 rs2 => encodeR 1 rd rs1 rs2
  | .and rd rs1 rs2 => encodeR 2 rd rs1 rs2
  | .or rd rs1 rs2 => encodeR 3 rd rs1 rs2
  | .xor rd rs1 rs2 => encodeR 4 rd rs1 rs2
  | .print r => encodeS 5 r
  | .read r => encodeS 6 r
  | .blt ra rb target5 => encodeB 7 ra rb target5

/-- The two bytes of an instruction in address order (R34, R68). -/
def encodeBytes (i : Instr) : List Byte := [highByte (encode i), lowByte (encode i)]

/-- What an assembler emits: it refuses an odd branch target, "since such an instruction can only fault" (R68). -/
def assemble (i : Instr) : Option Word := if i.WellFormed then some (encode i) else none

/-- The bits of `w` that no field of its format covers, as a number: `w[0:0]` in formats I and R, `w[8:0]` in format S,
none in format B (R51 to R54, R58). -/
def ignoredBits (w : Word) : Nat :=
  match extractBits w 0 2 with
  | 5 => extractBits w 7 15
  | 6 => extractBits w 7 15
  | 7 => 0
  | _ => extractBits w 15 15

end Sys2Proof
end

