-- ==== Sys2Proof/Config.lean ====
section
/-! DEFINITION. What the implementation fixes (00_scope.md R5) and the one parameter the spec leaves open. -/

namespace Sys2Proof.Config

/-- `IBYTES`: bytes per instruction (R5). -/
def instrBytes : Nat := 2

/-- `MEMBYTES`: capacity of the instruction memory, addresses 0 to 31 (R5, R20). -/
def memBytes : Nat := 32

/-- `MAXINSTR`: the largest legal instruction count (R5, R21). -/
def maxInstr : Nat := 16

/-- Which loader error a file both odd in length and longer than 32 bytes raises, file by file: `true` for
`TruncatedInstruction`, `false` for `TooManyInstructions`. The spec leaves it open and calls it a parameter
(60_exceptions.md R119, 93 U15); outside the core. It takes the file's bytes, because the spec does not say that every such
file raises the same error (33 and 35 bytes may differ). A FREE VALUE: no body, nothing can be proved of it. DESIGN CHOICE
(log 17): the error depends on nothing but the file's bytes. -/
opaque oddAndLongIsTruncated : List Byte → Bool

end Sys2Proof.Config
end

