-- ==== Sys2Proof/Machine/State.lean ====
section
/-! DEFINITION. The machine's state as plain data (10_state.md), its reset value, and the reasons a step can stop. -/

namespace Sys2Proof.Machine

/-- The engine's run state (R16, R77). -/
inductive Status where
  /-- "running, at an instruction boundary"; the next thing the engine does is fetch. -/
  | fetching
  /-- An instruction is in `ir` and is being executed; the machine rests here only in READ's wait (R94). -/
  | executing
  /-- The program has run to or past its end; terminal (R78). -/
  | halted
  /-- A fatal condition stopped the engine; terminal (R78). -/
  | faulted
  deriving DecidableEq, Repr

/-- The core's fault kinds (R102); `None` of R17 is `Option.none` in `State.fkind`. -/
inductive FaultKind where
  /-- A table miss of the decoder; no word raises it (R103). -/
  | invalidOpcode
  /-- A BLT with an odd target was executed (R104). -/
  | misalignedBranch
  /-- A READ found the input source exhausted or malformed (R105). -/
  | inputExhausted
  deriving DecidableEq, Repr

/-- One item of the input source as READ meets it (R24, R95). -/
inductive InputItem where
  /-- The next integer of the sequence, of any size and sign (R24). -/
  | value (n : Int)
  /-- An item that is not a number: answered as `Exhausted` and not consumed (R95, D16; log 7). -/
  | malformed
  deriving DecidableEq, Repr

/-- What the input source does past its last listed item (R24; log 6). -/
inductive InputEnd where
  /-- It reports `Exhausted`: "there is no further item and never will be" (R24b). -/
  | exhausted
  /-- It has not yet answered; the environment may still deliver an item or close the source (R24c, R94). -/
  | unanswered
  deriving DecidableEq, Repr

/-- The instruction memory: the bytes that have a value, addresses strictly rising and below 32 (R20, R30). An unlisted
address has NO value, so no entry can equal what an unlisted address reads as (R33, D11; log 2). -/
abbrev Memory := List Host.Cell

/-- From address `lo` on, addresses rise strictly and stay inside the 32 bytes. -/
def Memory.wfFrom : Nat → Memory → Bool
  | _, [] => true
  | lo, (a, _) :: m => decide (lo ≤ a) && decide (a < Config.memBytes) && Memory.wfFrom (a + 1) m

/-- The canonical form of memory. -/
def Memory.wf (m : Memory) : Bool := Memory.wfFrom 0 m

/-- The machine's state: the tuple of R29 and the launch parameters, which no step changes (log 1). -/
structure State where
  /-- `x[0]` to `x[15]` (R10). -/
  x : Vector Byte 16
  /-- The program counter (R13). -/
  pc : Word
  /-- The instruction register (R15). -/
  ir : Word
  /-- The engine's run state (R16). -/
  status : Status
  /-- Which fault stopped the engine (R17). -/
  fkind : Option FaultKind
  /-- The values emitted so far, oldest first (R25). -/
  out : List Byte
  /-- How many input items have been consumed (R24, R29). -/
  incur : Nat
  /-- Launch parameter: the loaded image (R20). -/
  mem : Memory
  /-- Launch parameter: the instruction count, a 5-bit input of which 0 to 16 are legal (R21). -/
  icount : BitVec 5
  /-- Launch parameter: the listed items of the input source, consumed ones included (R24). -/
  input : List InputItem
  /-- Launch parameter: what follows the listed items (R24; log 6). -/
  inputEnd : InputEnd
  deriving DecidableEq, Repr

/-- Why the machine stops without a next state. The spec's own faults are not here: they are next states with
`status = faulted` (R108). -/
inductive Fault where
  /-- Raised by `step` in `Halted`, which "has no step" and is left by reset only (R78). Safe: the spec's own stop (log 4). -/
  | engineHalted
  /-- Raised by `step` in `Faulted`, which "has no step" and is left by reset only (R78). Safe: the spec's own stop (log 4). -/
  | engineFaulted
  /-- Raised by the fetch at an odd `pc`, which "cannot occur and has no defined behaviour to model" (R36). Safe (log 14). -/
  | misalignedFetch
  /-- Raised by the fetch in `Fetching` with `pc` at or past the halt bound, excluded by R70's precondition and R39. Safe
  (log 14). -/
  | fetchBeyondImage
  /-- Raised by the fetch of a byte of the program that no launch has given a value (R33, R125). Safe (log 2). -/
  | byteWithoutValue
  deriving DecidableEq, Repr

/-- Why the model has no meaning. -/
inductive Refusal where
  /-- For an arm of `exec` whose instruction has no meaning yet; no arm of this model raises it. Safe. -/
  | notModelled (mnemonic : String)
  /-- Raised by `step` when `icount` is 17 to 31: "a model refuses a launch that has one" (R21, D18, U10). Safe (log 13). -/
  | illegalInstructionCount
  deriving DecidableEq, Repr

/-- The machine right after reset with nothing loaded (R28, R122): registers 0, `pc` 0, `ir` 0x0000 (D4; log 8), no fault, sink
empty, cursor at the first item. The launch parameters have no reset value; with nothing loaded the image is empty and
`icount` is 0 (log 3), so the halt test at reset has made the engine `Halted` (R76, D5; log 9). -/
def State.reset : State where
  x := Vector.replicate 16 0
  pc := 0
  ir := 0
  status := .halted
  fkind := none
  out := []
  incur := 0
  mem := []
  icount := 0
  input := []
  inputEnd := .exhausted

end Sys2Proof.Machine
end

