-- ==== Sys2Proof/Machine/Ops.lean ====
section
/-! DEFINITION. The named operations the instruction meanings and the engine share: registers, memory, fetch, the `pc`
write with its halt test, fault entry, input and output. There is no return from a fault: nothing but reset leaves
`Faulted` (60_exceptions.md R111), and `State.resetEvent` is in Machine/Launch.lean. -/

namespace Sys2Proof.Machine

/-- `x[i]` (R10). -/
def State.readReg (s : State) (i : RegIdx) : Byte := s.x[i.val]

/-- `x[i] <- v` (R10, R11): every register is an ordinary writable one. -/
def State.writeReg (s : State) (i : RegIdx) (v : Byte) : State := { s with x := s.x.set i.val v }

/-- `mem[a]`, or no value where nothing is listed and outside the 32 bytes (R30, R33). -/
def Memory.read : Memory → Nat → Option Byte
  | [], _ => none
  | (b, v) :: m, a => if a = b then some v else Memory.read m a

/-- Put a cell at its place in rising order of addresses. -/
def Memory.insert : Memory → Nat → Byte → Memory
  | [], a, v => [(a, v)]
  | (b, u) :: m, a, v =>
    if a < b then (a, v) :: (b, u) :: m
    else if a = b then (a, v) :: m
    else (b, u) :: Memory.insert m a v

/-- What a loader does to one byte before a run; an address past the 32 bytes has no cell (R30; log 2). No instruction
writes memory (R37). -/
def Memory.write (m : Memory) (a : Nat) (v : Byte) : Memory :=
  if a < Config.memBytes then m.insert a v else m

/-- The cells of an image laid out upward from address `a` without gaps (R32, R125). -/
def Memory.ofBytes : List Byte → Nat → Memory
  | [], _ => []
  | v :: vs, a => (a, v) :: Memory.ofBytes vs (a + 1)

/-- `MemRead(a, 2)`: the two bytes at `a` and `a + 1`, big-endian (R34, R35); no value if either byte has none. -/
def Memory.readWord (m : Memory) (a : Nat) : Option Word :=
  match m.read a, m.read (a + 1) with
  | some hi, some lo => some (wordOfBytes hi lo)
  | _, _ => none

/-- The halt bound, the byte address `2 × icount` (R9, R21). -/
def State.haltBound (s : State) : Nat := Config.instrBytes * s.icount.toNat

/-- The halt test: `Halted` when `pc ≥ 2 × icount`, unsigned, else `Fetching` (R75). -/
def haltTest (bound : Nat) (pc : Word) : Status := if bound ≤ pc.toNat then .halted else .fetching

/-- The default `next_pc`, `pc + 2` modulo 2^16 (R74, D6; log 20). -/
def State.seqPc (s : State) : Word := s.pc + 2

/-- The end of an iteration that raised no fault: `pc` is written once, then the halt test (R74, R75). -/
def State.retire (s : State) (nextPc : Word) : State :=
  { s with pc := nextPc, status := haltTest s.haltBound nextPc }

/-- TAKING A FAULT (R108): `status` and `fkind` are written and nothing else; `pc` and `ir` still name the instruction. -/
def State.raiseFault (s : State) (k : FaultKind) : State := { s with status := .faulted, fkind := some k }

/-- `Out(v)`: the sink takes one value and always accepts (R25; log 18). -/
def State.emit (s : State) (v : Byte) : State := { s with out := s.out ++ [v] }

/-- What the input source answers a READ (R24). -/
inductive InputAnswer where
  | value (n : Int)
  | exhausted
  | unanswered
  deriving DecidableEq, Repr

/-- `In()`: the item at the cursor; a malformed item is answered `Exhausted` (R24, R95, D16). -/
def State.askInput (s : State) : InputAnswer :=
  match s.input[s.incur]? with
  | some (.value n) => .value n
  | some .malformed => .exhausted
  | none =>
    match s.inputEnd with
    | .exhausted => .exhausted
    | .unanswered => .unanswered

/-- The source's cursor moves past one item (R24). -/
def State.consumeInput (s : State) : State := { s with incur := s.incur + 1 }

/-- READ's wait: the engine stays in `Executing` and nothing else changes (R94; log 5). -/
def State.waitForInput (s : State) : State := { s with status := .executing }

/-- `n mod 256` in 0 to 255, for any integer (R93, D7; log 10). -/
def truncateToByte (n : Int) : Byte := BitVec.ofInt 8 n

/-- The fetch that begins an iteration: `ir <- MemRead(pc, 2)` and `status <- Executing` (R70, R71). It is aligned, in
bounds and of loaded bytes in every run (R36, R39); elsewhere it stops by name (log 14). -/
def State.fetch (s : State) : Except Fault State :=
  if s.pc.toNat % 2 = 1 then .error .misalignedFetch
  else if s.haltBound ≤ s.pc.toNat then .error .fetchBeyondImage
  else
    match s.mem.readWord s.pc.toNat with
    | none => .error .byteWithoutValue
    | some w => .ok { s with ir := w, status := .executing }

/-- The instruction count with which the fetch at `pc` is inside the program: the count as it is where it serves, else
the least that serves. -/
def State.countCovering (s : State) : BitVec 5 :=
  if s.pc.toNat < s.haltBound ∧ s.icount.toNat ≤ Config.maxInstr then s.icount
  else BitVec.ofNat 5 (s.pc.toNat / Config.instrBytes + 1)

/-- Place an instruction word where the next fetch reads it, and make that fetch the next thing the engine does. -/
def State.placeWord (s : State) (w : Word) : State :=
  { s with
    mem := (s.mem.write s.pc.toNat (highByte w)).write (s.pc.toNat + 1) (lowByte w)
    icount := s.countCovering
    status := .fetching }

end Sys2Proof.Machine
end

