-- ==== Sys2Proof/Machine/Operands.lean ====
section
/-! DEFINITION. The operand forms (30_encoding.md R55, R56): a register by its 4-bit number (`State.readReg`), the
immediate as it stands, and the branch target as an absolute byte address. There is no other form. -/

namespace Sys2Proof.Machine

/-- The LOADI operand: 8 bits into 8 bits, "neither sign-extended nor zero-extended, not shifted and not scaled" (R55). -/
def immediateOperand (imm8 : Byte) : Byte := imm8

/-- `zext_16(target5)`: absolute, unscaled, not relative to `pc` (R56). -/
def targetAddress (target5 : Target) : Word := target5.setWidth 16

/-- `target5[0:0] = 1`: an odd target, "a fatal format violation" (R98). -/
def targetIsOdd (target5 : Target) : Bool := target5.toNat % 2 == 1

/-- The two source registers, both read before anything is written (R84, R86). -/
def State.sources (s : State) (rs1 rs2 : RegIdx) : Byte × Byte := (s.readReg rs1, s.readReg rs2)

end Sys2Proof.Machine
end

