-- ==== Sys2Proof/Machine/Alu.lean ====
section
/-! DEFINITION. ADD, AND, OR, XOR (42_alu.md): two source registers combined and written to a third. -/

namespace Sys2Proof.Machine

/-- ADD's result: the exact sum, at most 510, reduced modulo 256; the carry is discarded (R87, R91). -/
def aluAdd (a b : Byte) : Byte := BitVec.ofNat 8 ((a.toNat + b.toNat) % 256)

/-- AND's result, bit by bit (R88). -/
def aluAnd (a b : Byte) : Byte := a &&& b

/-- OR's result, bit by bit (R89). -/
def aluOr (a b : Byte) : Byte := a ||| b

/-- XOR's result, bit by bit (R90). -/
def aluXor (a b : Byte) : Byte := a ^^^ b

/-- What the four have in common: both sources are read, combined, and the result written to the destination (R86). -/
def execAlu (op : Byte → Byte → Byte) (rd rs1 rs2 : RegIdx) (s : State) : Host.Outcome State Fault Refusal :=
  let ab := s.sources rs1 rs2
  .next ((s.writeReg rd (op ab.1 ab.2)).retire s.seqPc)

/-- ADD (R87). -/
def execAdd (rd rs1 rs2 : RegIdx) (s : State) : Host.Outcome State Fault Refusal := execAlu aluAdd rd rs1 rs2 s

/-- AND (R88). -/
def execAnd (rd rs1 rs2 : RegIdx) (s : State) : Host.Outcome State Fault Refusal := execAlu aluAnd rd rs1 rs2 s

/-- OR (R89). -/
def execOr (rd rs1 rs2 : RegIdx) (s : State) : Host.Outcome State Fault Refusal := execAlu aluOr rd rs1 rs2 s

/-- XOR (R90). -/
def execXor (rd rs1 rs2 : RegIdx) (s : State) : Host.Outcome State Fault Refusal := execAlu aluXor rd rs1 rs2 s

end Sys2Proof.Machine
end

