-- ==== Sys2Proof/Machine/Flags.lean ====
section
/-! DEFINITION. There are no flags, condition codes or predicates (10_state.md R19). The one condition of the machine is
BLT's comparison, computed from two registers and discarded (44_branch.md R97). -/

namespace Sys2Proof.Machine

/-- `a <u b`: unsigned and strict (R97, 00_scope.md 6.3; log 23). -/
def lessUnsigned (a b : Byte) : Bool := decide (a.toNat < b.toNat)

end Sys2Proof.Machine
end

