-- ==== Sys2Proof/Machine/Branch.lean ====
section
/-! DEFINITION. BLT (44_branch.md). -/

namespace Sys2Proof.Machine

/-- BLT: the alignment check first, whatever the comparison (R98); then `pc <- zext_16(target5)` if `x[ra] <u x[rb]`, in one
assignment (R97, R99), else fall through. -/
def execBlt (ra rb : RegIdx) (target5 : Target) (s : State) : Host.Outcome State Fault Refusal :=
  if targetIsOdd target5 then .next (s.raiseFault .misalignedBranch)
  else if lessUnsigned (s.readReg ra) (s.readReg rb) then .next (s.retire (targetAddress target5))
  else .next (s.retire s.seqPc)

end Sys2Proof.Machine
end

