-- ==== Sys2Proof/Machine/InOut.lean ====
section
/-! DEFINITION. PRINT and READ (43_io.md). -/

namespace Sys2Proof.Machine

/-- PRINT: `Out(x[r])`; no register is written (R92). -/
def execPrint (r : RegIdx) (s : State) : Host.Outcome State Fault Refusal :=
  .next ((s.emit (s.readReg r)).retire s.seqPc)

/-- READ: take the next integer and keep its low 8 bits (R93), fault when the source is exhausted (R95), or wait (R94). -/
def execRead (r : RegIdx) (s : State) : Host.Outcome State Fault Refusal :=
  match s.askInput with
  | .value n => .next ((s.consumeInput.writeReg r (truncateToByte n)).retire s.seqPc)
  | .exhausted => .next (s.raiseFault .inputExhausted)
  | .unanswered => .next s.waitForInput

end Sys2Proof.Machine
end

