-- ==== Sys2Proof/Machine/LoadImmediate.lean ====
section
/-! DEFINITION. LOADI (41_load_immediate.md R85). -/

namespace Sys2Proof.Machine

/-- LOADI: `x[rd] <- imm8` (R85). -/
def execLoadi (rd : RegIdx) (imm8 : Byte) (s : State) : Host.Outcome State Fault Refusal :=
  .next ((s.writeReg rd (immediateOperand imm8)).retire s.seqPc)

end Sys2Proof.Machine
end

