-- ==== Sys2Proof/Machine/Dispatch.lean ====
section
/-! DEFINITION. The dispatch of step 3 of the loop: one arm per variant, exhaustive (40_fetch_decode_execute.md R73). -/

namespace Sys2Proof.Machine

def exec (i : Instr) (s : State) : Host.Outcome State Fault Refusal :=
  match i with
  | .loadi rd imm8 => Sys2Proof.Machine.execLoadi rd imm8 s
  | .add rd rs1 rs2 => Sys2Proof.Machine.execAdd rd rs1 rs2 s
  | .and rd rs1 rs2 => Sys2Proof.Machine.execAnd rd rs1 rs2 s
  | .or rd rs1 rs2 => Sys2Proof.Machine.execOr rd rs1 rs2 s
  | .xor rd rs1 rs2 => Sys2Proof.Machine.execXor rd rs1 rs2 s
  | .print r => Sys2Proof.Machine.execPrint r s
  | .read r => Sys2Proof.Machine.execRead r s
  | .blt ra rb target5 => Sys2Proof.Machine.execBlt ra rb target5 s

end Sys2Proof.Machine
end

