-- ==== Sys2Proof/Machine/Engine.lean ====
section
/-! DEFINITION. One iteration of the engine's loop (40_fetch_decode_execute.md R70, R77). -/

namespace Sys2Proof.Machine

/-- Steps 2 and 3 of the loop on the word in `ir`: decode it and execute it; a decode failure takes the fault
`InvalidOpcode` (R72), which no word does (R57, R103). -/
def execIr (s : State) : Host.Outcome State Fault Refusal :=
  match decode s.ir with
  | .ok i => exec i s
  | .error _ => .next (s.raiseFault .invalidOpcode)

/-- One iteration. In `Fetching`: fetch, then execute (R70). In `Executing`: a READ's wait goes on, the word is in `ir`
already (R94; log 25). In `Halted` and `Faulted` the engine has no step (R78). A launch with an illegal count is refused (R21). -/
def iterate (s : State) : Host.Outcome State Fault Refusal :=
  if Config.maxInstr < s.icount.toNat then .refused .illegalInstructionCount
  else
    match s.status with
    | .fetching =>
      match s.fetch with
      | .ok t => execIr t
      | .error r => .fault r
    | .executing => execIr s
    | .halted => .fault .engineHalted
    | .faulted => .fault .engineFaulted

end Sys2Proof.Machine
end

