-- ==== Sys2Proof/Machine/Step.lean ====
section
/-! DEFINITION. The step: one iteration (00_scope.md R7), and the placing of an instruction where it is fetched next. -/

namespace Sys2Proof.Machine

/-- One step of the machine is one iteration of the engine's loop (R7). -/
def step (s : State) : Host.Outcome State Fault Refusal := iterate s

/-- `s` with the instruction whose bits are `w` stored at `pc`, inside the program and about to be fetched: it stands for
the loader's work (R125, R126; log 3). Every instruction is one 16-bit word, so at most 16 bits count (R45). -/
def State.withFetchWord (s : State) (nbits w : Nat) : State := s.placeWord (BitVec.ofNat 16 (w % 2 ^ nbits))

end Sys2Proof.Machine
end

