-- ==== Sys2Proof/Machine/Disasm.lean ====
section
/-! DEFINITION. The assembly syntax and the disassembly pass (30_encoding.md R64 to R67, D1, D2; log 19). It is outside the
hardware block (00_scope.md R4), uses the engine's own `decode` (R63) and changes no machine state. -/

namespace Sys2Proof.Machine

/-- The eight mnemonics (R64, D1). -/
def mnemonic : Instr → String
  | .loadi _ _ => "LOADI"
  | .add _ _ _ => "ADD"
  | .and _ _ _ => "AND"
  | .or _ _ _ => "OR"
  | .xor _ _ _ => "XOR"
  | .print _ => "PRINT"
  | .read _ => "READ"
  | .blt _ _ _ => "BLT"

/-- A register operand: `R` and its number in decimal (R65). -/
def regText (i : RegIdx) : String := "R" ++ Nat.repr i.val

/-- Three register operands, destination first (R65). -/
def threeRegs (rd rs1 rs2 : RegIdx) : String := regText rd ++ " " ++ regText rs1 ++ " " ++ regText rs2

/-- The operand text, fields in text order with single spaces (R65, D2). -/
def operandText : Instr → String
  | .loadi rd imm8 => regText rd ++ " " ++ Nat.repr imm8.toNat
  | .add rd rs1 rs2 => threeRegs rd rs1 rs2
  | .and rd rs1 rs2 => threeRegs rd rs1 rs2
  | .or rd rs1 rs2 => threeRegs rd rs1 rs2
  | .xor rd rs1 rs2 => threeRegs rd rs1 rs2
  | .print r => regText r
  | .read r => regText r
  | .blt ra rb target5 => regText ra ++ " " ++ regText rb ++ " " ++ Nat.repr target5.toNat

/-- Mnemonic and operands, as an assembler would read them (R64, R65). -/
def asmText (i : Instr) : String := mnemonic i ++ " " ++ operandText i

/-- One line: the byte offset in decimal, a colon, a space, the instruction (R66, D2). -/
def disasmLine (offset : Nat) (i : Instr) : String := Nat.repr offset ++ ": " ++ asmText i

/-- Why the pass aborts: "a decode failure", which cannot occur (R67, R120), or a byte that no launch has given a value. -/
inductive DisasmError where
  | decodeFailure (e : DecodeError)
  | byteWithoutValue
  deriving DecidableEq, Repr

/-- The lines of `count` instructions from byte `offset` on, "in ascending offset order, offsets stepping by 2" (R67). -/
def disassembleFrom (m : Memory) : Nat → Nat → Except DisasmError (List String)
  | _, 0 => .ok []
  | offset, count + 1 =>
    match m.readWord offset with
    | none => .error .byteWithoutValue
    | some w =>
      match decode w with
      | .error e => .error (.decodeFailure e)
      | .ok i =>
        match disassembleFrom m (offset + Config.instrBytes) count with
        | .ok rest => .ok (disasmLine offset i :: rest)
        | .error e => .error e

/-- The pass over the loaded program (R67). -/
def disassemble (s : State) : Except DisasmError (List String) := disassembleFrom s.mem 0 s.icount.toNat

end Sys2Proof.Machine
end

