-- ==== Sys2Proof/Machine/Launch.lean ====
section
/-! DEFINITION. The core's boundary with its environment (10_state.md section 6): how a program comes to be loaded and
started, the reset event, what the input source may do, and what is observed. These are the environment's moves; no
step makes one. -/

namespace Sys2Proof.Machine

/-- Errors of the loader and the command-line collaborator, outside the core (R102, R119). -/
inductive LoadError where
  /-- "A file containing a byte count not a multiple of 2". -/
  | truncatedInstruction
  /-- "A file containing more than 16 words". -/
  | tooManyInstructions
  /-- A "source/sink cannot be opened"; the collaborator's concern, raised by nothing here. -/
  | ioUnavailable
  deriving DecidableEq, Repr

/-- The 2-bit code of a run state (R16, D8; log 12). -/
def Status.code : Status → BitVec 2
  | .fetching => 0
  | .executing => 1
  | .halted => 2
  | .faulted => 3

/-- The 3-bit code of `fkind` (R106, D8; log 12). -/
def fkindCode : Option FaultKind → BitVec 3
  | none => 0
  | some .invalidOpcode => 1
  | some .misalignedBranch => 2
  | some .inputExhausted => 3

/-- The codes of the loader's errors in the same numbering; `fkind` never holds them (R106, D8; log 12). -/
def LoadError.code : LoadError → BitVec 3
  | .truncatedInstruction => 4
  | .tooManyInstructions => 5
  | .ioUnavailable => 6

/-- The state after reset with the given launch parameters (R28, R29), the halt test applied on entry (R76; log 9). -/
def State.start (mem : Memory) (icount : BitVec 5) (input : List InputItem) (inputEnd : InputEnd) : State :=
  let s : State := { State.reset with mem := mem, icount := icount, input := input, inputEnd := inputEnd }
  { s with status := haltTest s.haltBound s.pc }

/-- A launch: refused when the count is above 16 (R21, D18, U10). -/
def launch (mem : Memory) (icount : BitVec 5) (input : List InputItem) (inputEnd : InputEnd) : Except Refusal State :=
  if Config.maxInstr < icount.toNat then .error .illegalInstructionCount
  else .ok (State.start mem icount input inputEnd)

/-- What the loader reports of a program file: an error, or the image laid out from address 0 and its instruction count
(R119, R125, R126). A file both odd and too long is left, file by file, to
`Config.oddAndLongIsTruncated` (U15; log 17). -/
def loadBytes (bytes : List Byte) : Except LoadError (Memory × BitVec 5) :=
  let odd := bytes.length % Config.instrBytes = 1
  let long := Config.memBytes < bytes.length
  if odd ∧ long then
    .error (if Config.oddAndLongIsTruncated bytes then .truncatedInstruction else .tooManyInstructions)
  else if odd then .error .truncatedInstruction
  else if long then .error .tooManyInstructions
  else .ok (Memory.ofBytes bytes 0, BitVec.ofNat 5 (bytes.length / Config.instrBytes))

/-- Load a program file and start the engine on it; on an error "the core is never started" (R119). -/
def loadAndStart (bytes : List Byte) (input : List InputItem) (inputEnd : InputEnd) : Except LoadError State :=
  match loadBytes bytes with
  | .ok p => .ok (State.start p.1 p.2 input inputEnd)
  | .error e => .error e

/-- The reset event, at any time and in any status (R123, D17): it restores `x`, `pc`, `ir`, `status` and `fkind` and leaves
`mem` and `icount` alone. What becomes of the source and the sink is the environment's affair: they stay here as they
are (log 16). -/
def State.resetEvent (s : State) : State :=
  { s with
    x := State.reset.x
    pc := State.reset.pc
    ir := State.reset.ir
    status := haltTest s.haltBound State.reset.pc
    fkind := State.reset.fkind }

/-- The environment supplies one more item while the source is open (R24, R94); a closed source has "no further item". -/
def State.deliver (s : State) (item : InputItem) : State :=
  match s.inputEnd with
  | .unanswered => { s with input := s.input ++ [item] }
  | .exhausted => s

/-- The environment reports that there is no further item and never will be (R24b). -/
def State.closeInput (s : State) : State := { s with inputEnd := .exhausted }

/-- What a run shows the environment (R26, D19). -/
structure Observation where
  out : List Byte
  consumed : Nat
  status : Status
  fkind : Option FaultKind
  deriving DecidableEq, Repr

/-- The environment's view of a state (R26). -/
def State.observe (s : State) : Observation :=
  { out := s.out, consumed := s.incur, status := s.status, fkind := s.fkind }

/-- How the environment shows one emitted value: unsigned decimal on a line of its own (R25, R92, D15; log 18). -/
def renderLine (v : Byte) : String := Nat.repr v.toNat ++ "\n"

/-- The text of the whole sink. -/
def renderOutput (out : List Byte) : String := String.join (out.map renderLine)

end Sys2Proof.Machine
end

