-- ==== Sys2Proof/Safety.lean ====
section
/-! DEFINITION. The terms claims are stated in: what an instruction leaves unchanged, how it ends, the invariant of every
run, and what a clean end is. -/

namespace Sys2Proof

open Sys2Proof.Machine

/-- Every register holds what it held. -/
def RegsSame (s t : State) : Prop := ∀ r : RegIdx, t.readReg r = s.readReg r

/-- Every register but `rd` holds what it held. -/
def RegsSameBut (rd : RegIdx) (s t : State) : Prop := ∀ r : RegIdx, r ≠ rd → t.readReg r = s.readReg r

/-- What no execute phase changes: the word in `ir`, every byte of memory, and the other launch parameters (R20, R21, R79). -/
structure CommonFrame (s t : State) : Prop where
  ir : t.ir = s.ir
  mem : ∀ a : Nat, t.mem.read a = s.mem.read a
  icount : t.icount = s.icount
  input : t.input = s.input
  inputEnd : t.inputEnd = s.inputEnd

/-- The frame of an instruction that neither faults nor touches the sink or the source. -/
structure QuietFrame (s t : State) : Prop where
  common : CommonFrame s t
  fkind : t.fkind = s.fkind
  out : t.out = s.out
  incur : t.incur = s.incur

/-- Nothing but `status` and `fkind` may have changed: the frame of a fault (R108, R109) and of READ's wait (R94). -/
structure StandsStill (s t : State) : Prop where
  common : CommonFrame s t
  regs : RegsSame s t
  pc : t.pc = s.pc
  out : t.out = s.out
  incur : t.incur = s.incur

/-- The instruction completed with `pc` at `npc` and the halt test made there (R74, R75). -/
structure RetiresAt (s t : State) (npc : Word) : Prop where
  pc : t.pc = npc
  halts : 2 * s.icount.toNat ≤ npc.toNat → t.status = .halted
  goesOn : npc.toNat < 2 * s.icount.toNat → t.status = .fetching

/-- The invariants at every iteration boundary of every run (R29, R82), and those of a rest in READ's wait (R94) and after a
fault (R108). -/
structure Inv (s : State) : Prop where
  countLegal : s.icount.toNat ≤ 16
  pcEven : s.pc.toNat % 2 = 0
  pcBound : s.pc.toNat ≤ 32
  fetchingBelow : s.status = .fetching → s.pc.toNat < 2 * s.icount.toNat
  executingBelow : s.status = .executing → s.pc.toNat < 2 * s.icount.toNat
  haltedAbove : s.status = .halted → 2 * s.icount.toNat ≤ s.pc.toNat
  faultedExactly : s.status = .faulted ↔ s.fkind ≠ none
  waitingRead : s.status = .executing → ∃ r, decode s.ir = .ok (.read r)
  irAtPc : s.status = .executing ∨ s.status = .faulted → s.mem.readWord s.pc.toNat = some s.ir
  cursor : s.incur ≤ s.input.length
  memWf : s.mem.wf = true
  loaded : ∀ a : Nat, a < 2 * s.icount.toNat → (s.mem.read a).isSome = true

/-- A clean end: `Halted` with no fault recorded (R81, R110). -/
def CleanEnd (s : State) : Prop := s.status = .halted ∧ s.fkind = none

end Sys2Proof
end

