-- ==== Sys2Proof/Certificates/Slice0/Obligations.lean ====
section
/-! DEFINITION. The statements for the provers. Each docstring names the rule of spec/ it formalises. -/

open Sys2Proof Sys2Proof.Machine

/-! ### Encoding -/

/-- R61, first direction: "encoding then decoding recovers the identical variant and operand values", for every operand. -/
def Obligations.DecodeEncodeRoundTrip : Prop :=
  ∀ i : Instr, decode (encode i) = .ok i

/-- R61, converse: re-encoding gives the word back exactly when its ignored bits are 0, and always in format B. -/
def Obligations.ReencodeExactlyWhenIgnoredBitsZero : Prop :=
  ∀ (w : Word) (i : Instr), decode w = .ok i →
    (w.toNat / 8192 ≤ 4 → (encode i = w ↔ w.toNat % 2 = 0)) ∧
    (w.toNat / 8192 = 5 ∨ w.toNat / 8192 = 6 → (encode i = w ↔ w.toNat % 512 = 0)) ∧
    (w.toNat / 8192 = 7 → encode i = w)

/-- R48: the opcode is `w{0..2}` = `w[15:13]` = `floor(w / 8192)`, and is the first byte's top three bits. -/
def Obligations.OpcodeIsTopThreeBits : Prop :=
  ∀ w : Word, extractBits w 0 2 = (w.extractLsb 15 13).toNat ∧ extractBits w 0 2 = w.toNat / 8192 ∧
    extractBits w 0 2 = (highByte w).toNat / 32

/-- R57: every one of the 65536 words decodes, to the variant of its opcode. -/
def Obligations.EveryWordDecodesToItsOpcode : Prop :=
  ∀ w : Word, ∃ i, decode w = .ok i ∧ i.opcode = extractBits w 0 2

/-- R51 to R54: the field layouts in LSB numbering, opcode by opcode. -/
def Obligations.FieldLayoutsOfAllFormats : Prop :=
  ∀ w : Word,
    (w.extractLsb 15 13 = 0 → decode w = .ok (.loadi (w.extractLsb 12 9).toFin (w.extractLsb 8 1))) ∧
    (w.extractLsb 15 13 = 1 →
      decode w = .ok (.add (w.extractLsb 4 1).toFin (w.extractLsb 12 9).toFin (w.extractLsb 8 5).toFin)) ∧
    (w.extractLsb 15 13 = 2 →
      decode w = .ok (.and (w.extractLsb 4 1).toFin (w.extractLsb 12 9).toFin (w.extractLsb 8 5).toFin)) ∧
    (w.extractLsb 15 13 = 3 →
      decode w = .ok (.or (w.extractLsb 4 1).toFin (w.extractLsb 12 9).toFin (w.extractLsb 8 5).toFin)) ∧
    (w.extractLsb 15 13 = 4 →
      decode w = .ok (.xor (w.extractLsb 4 1).toFin (w.extractLsb 12 9).toFin (w.extractLsb 8 5).toFin)) ∧
    (w.extractLsb 15 13 = 5 → decode w = .ok (.print (w.extractLsb 12 9).toFin)) ∧
    (w.extractLsb 15 13 = 6 → decode w = .ok (.read (w.extractLsb 12 9).toFin)) ∧
    (w.extractLsb 15 13 = 7 →
      decode w = .ok (.blt (w.extractLsb 12 9).toFin (w.extractLsb 8 5).toFin (w.extractLsb 4 0)))

/-- R58: two words that differ only in ignored bits decode to the same variant with the same operands. -/
def Obligations.IgnoredBitsDoNotDecode : Prop :=
  ∀ v w : Word,
    (v.toNat / 8192 ≤ 4 → v.toNat / 2 = w.toNat / 2 → decode v = decode w) ∧
    (v.toNat / 8192 = 5 ∨ v.toNat / 8192 = 6 → v.toNat / 512 = w.toNat / 512 → decode v = decode w)

/-- R46, R47: the extractor returns the bits `a..b` numbered from the most significant, right-aligned, in `b - a + 1`
bits; one bit for `a = b`; the whole word for `0..15`. -/
def Obligations.ExtractorReadsMsbNumberedBits : Prop :=
  (∀ (w : Word) (a b : Nat) (h : a ≤ b ∧ b ≤ 15),
    extractBits w a b h = w.toNat / 2 ^ (15 - b) % 2 ^ (b - a + 1) ∧
    extractBits w a b h < 2 ^ (b - a + 1) ∧
    ∀ k, a ≤ k → k ≤ b → (extractBits w a b h).testBit (b - k) = w.getMsbD k) ∧
  (∀ (w : Word) (a : Nat) (h : a ≤ a ∧ a ≤ 15), extractBits w a a h = (w.getMsbD a).toNat) ∧
  (∀ w : Word, extractBits w 0 15 = w.toNat)

/-- R68, R59, R34: the word of every instruction, ignored bits 0 (decision D3, log 21); its two bytes in address order are
`floor(word / 256)` and `word mod 256`; the decoder of bytes takes the first byte as the high one and leaves the rest. -/
def Obligations.EncoderWritesTheTabledWord : Prop :=
  (∀ rd imm8, (encode (.loadi rd imm8)).toNat = rd.val * 512 + imm8.toNat * 2) ∧
  (∀ rd rs1 rs2, (encode (.add rd rs1 rs2)).toNat = 0x2000 + rs1.val * 512 + rs2.val * 32 + rd.val * 2) ∧
  (∀ rd rs1 rs2, (encode (.and rd rs1 rs2)).toNat = 0x4000 + rs1.val * 512 + rs2.val * 32 + rd.val * 2) ∧
  (∀ rd rs1 rs2, (encode (.or rd rs1 rs2)).toNat = 0x6000 + rs1.val * 512 + rs2.val * 32 + rd.val * 2) ∧
  (∀ rd rs1 rs2, (encode (.xor rd rs1 rs2)).toNat = 0x8000 + rs1.val * 512 + rs2.val * 32 + rd.val * 2) ∧
  (∀ r, (encode (.print r)).toNat = 0xA000 + r.val * 512) ∧
  (∀ r, (encode (.read r)).toNat = 0xC000 + r.val * 512) ∧
  (∀ ra rb g, (encode (.blt ra rb g)).toNat = 0xE000 + ra.val * 512 + rb.val * 32 + g.toNat) ∧
  (∀ i : Instr, (encodeBytes i).map BitVec.toNat = [(encode i).toNat / 256, (encode i).toNat % 256]) ∧
  (∀ (hi lo : Byte) (rest : List Byte) (i : Instr), decode (BitVec.ofNat 16 (hi.toNat * 256 + lo.toNat)) = .ok i →
    decodeBytes (hi :: lo :: rest) = .ok (i, rest)) ∧
  (∀ i : Instr, decodeBytes (encodeBytes i) = .ok (i, []))

/-- Words written out from R51 to R54 decode to the instruction they stand for (95_test_vectors.md section 3). -/
def Obligations.WordsWrittenOutDecode : Prop :=
  decode 0b0001111111111110 = .ok (.loadi 15 255) ∧
  decode 0b0010000000100100 = .ok (.add 2 0 1) ∧
  decode 0b0100001001000110 = .ok (.and 3 1 2) ∧
  decode 0b0111111000100000 = .ok (.or 0 15 1) ∧
  decode 0b1000010000100001 = .ok (.xor 0 2 1) ∧
  decode 0b1010010111111111 = .ok (.print 2) ∧
  decode 0b1101010000000000 = .ok (.read 10) ∧
  decode 0b1110011010011110 = .ok (.blt 3 4 30)

/-! ### Fetch and step -/

/-- R34, R35, R71: the fetch reads the two bytes at `pc`, high byte at the lower address, into `ir`, and changes nothing
else but the run state. -/
def Obligations.FetchReadsBigEndianWordAtPc : Prop :=
  ∀ (s : State) (hi lo : Byte), s.pc.toNat % 2 = 0 → s.pc.toNat < 2 * s.icount.toNat →
    s.mem.read s.pc.toNat = some hi → s.mem.read (s.pc.toNat + 1) = some lo →
    ∃ t, s.fetch = .ok t ∧ t.ir.toNat = hi.toNat * 256 + lo.toNat ∧
      t = { s with ir := t.ir, status := .executing }

/-- R70: in `Fetching`, when the bytes at `pc` decode to `i`, the step is `exec i` on the state whose `ir` holds the word and
whose status is `Executing`; `exec` itself moves `pc` and makes the halt test. -/
def Obligations.StepRunsTheFetchedInstruction : Prop :=
  ∀ (s : State) (hi lo : Byte) (i : Instr), s.icount.toNat ≤ 16 → s.status = .fetching → s.pc.toNat % 2 = 0 →
    s.pc.toNat < 2 * s.icount.toNat → s.mem.read s.pc.toNat = some hi → s.mem.read (s.pc.toNat + 1) = some lo →
    decode (wordOfBytes hi lo) = .ok i →
    step s = exec i { s with ir := wordOfBytes hi lo, status := .executing }

/-- R77, R94: in `Executing` the step runs the word held in `ir`, with no new fetch (log 25). -/
def Obligations.StepResumesTheHeldInstruction : Prop :=
  ∀ (s : State) (i : Instr), s.icount.toNat ≤ 16 → s.status = .executing → decode s.ir = .ok i → step s = exec i s

/-- R78: "the engine has no step in either": from `Halted` and from `Faulted` the step answers no next state, whatever the rest
of the state holds. -/
def Obligations.NoStepLeavesHaltedOrFaulted : Prop :=
  ∀ s t : State, s.status = .halted ∨ s.status = .faulted → step s ≠ .next t

/-- Which stop the model answers in `Halted` and which in `Faulted` (R78); the two names are the model's choice (log 4). -/
def Obligations.TerminalStatesHaveNoStep : Prop :=
  ∀ s : State, s.icount.toNat ≤ 16 →
    (s.status = .halted → step s = .fault .engineHalted) ∧ (s.status = .faulted → step s = .fault .engineFaulted)

/-- R21, U10 (decision D18): a count of 17 to 31 is refused, at launch and by every step; 0 to 16 launch (log 13). -/
def Obligations.IllegalCountIsRefused : Prop :=
  (∀ s : State, 17 ≤ s.icount.toNat → step s = .refused .illegalInstructionCount) ∧
  (∀ m n input e, 17 ≤ n.toNat → launch m n input e = .error .illegalInstructionCount) ∧
  (∀ m n input e, n.toNat ≤ 16 → launch m n input e = .ok (State.start m n input e))

/-! ### Instructions: result, completion and frame -/

/-- R85: LOADI completes in every state: its words, `x[rd]`, the frame, `pc + 2` and the halt test. -/
def Obligations.LoadiWritesImmediate : Prop :=
  ∀ (rd : RegIdx) (imm8 : Byte) (s : State),
    (∀ b, b < 2 → decode (BitVec.ofNat 16 (rd.val * 512 + imm8.toNat * 2 + b)) = .ok (.loadi rd imm8)) ∧
    ∃ t, exec (.loadi rd imm8) s = .next t ∧ t.readReg rd = imm8 ∧ RegsSameBut rd s t ∧ QuietFrame s t ∧
      RetiresAt s t (s.pc + 2)

/-- R87: ADD completes in every state, whatever registers coincide: `x[rd]` is the exact sum modulo 256. -/
def Obligations.AddWritesSumModulo256 : Prop :=
  ∀ (rd rs1 rs2 : RegIdx) (s : State),
    (∀ b, b < 2 →
      decode (BitVec.ofNat 16 (0x2000 + rs1.val * 512 + rs2.val * 32 + rd.val * 2 + b)) = .ok (.add rd rs1 rs2)) ∧
    ∃ t, exec (.add rd rs1 rs2) s = .next t ∧
      (t.readReg rd).toNat = ((s.readReg rs1).toNat + (s.readReg rs2).toNat) % 256 ∧
      RegsSameBut rd s t ∧ QuietFrame s t ∧ RetiresAt s t (s.pc + 2)

/-- R88: AND completes in every state; bit `k` of the result is the conjunction of the sources' bits. -/
def Obligations.AndCombinesBitByBit : Prop :=
  ∀ (rd rs1 rs2 : RegIdx) (s : State),
    (∀ b, b < 2 →
      decode (BitVec.ofNat 16 (0x4000 + rs1.val * 512 + rs2.val * 32 + rd.val * 2 + b)) = .ok (.and rd rs1 rs2)) ∧
    ∃ t, exec (.and rd rs1 rs2) s = .next t ∧
      (∀ k, k < 8 → ((t.readReg rd).getLsbD k = true ↔
        (s.readReg rs1).getLsbD k = true ∧ (s.readReg rs2).getLsbD k = true)) ∧
      RegsSameBut rd s t ∧ QuietFrame s t ∧ RetiresAt s t (s.pc + 2)

/-- R89: OR completes in every state; bit `k` of the result is the disjunction of the sources' bits. -/
def Obligations.OrCombinesBitByBit : Prop :=
  ∀ (rd rs1 rs2 : RegIdx) (s : State),
    (∀ b, b < 2 →
      decode (BitVec.ofNat 16 (0x6000 + rs1.val * 512 + rs2.val * 32 + rd.val * 2 + b)) = .ok (.or rd rs1 rs2)) ∧
    ∃ t, exec (.or rd rs1 rs2) s = .next t ∧
      (∀ k, k < 8 → ((t.readReg rd).getLsbD k = true ↔
        (s.readReg rs1).getLsbD k = true ∨ (s.readReg rs2).getLsbD k = true)) ∧
      RegsSameBut rd s t ∧ QuietFrame s t ∧ RetiresAt s t (s.pc + 2)

/-- R90: XOR completes in every state; bit `k` of the result is 1 exactly when the sources' bits differ. -/
def Obligations.XorCombinesBitByBit : Prop :=
  ∀ (rd rs1 rs2 : RegIdx) (s : State),
    (∀ b, b < 2 →
      decode (BitVec.ofNat 16 (0x8000 + rs1.val * 512 + rs2.val * 32 + rd.val * 2 + b)) = .ok (.xor rd rs1 rs2)) ∧
    ∃ t, exec (.xor rd rs1 rs2) s = .next t ∧
      (∀ k, k < 8 → ((t.readReg rd).getLsbD k = true ↔ (s.readReg rs1).getLsbD k ≠ (s.readReg rs2).getLsbD k)) ∧
      RegsSameBut rd s t ∧ QuietFrame s t ∧ RetiresAt s t (s.pc + 2)

/-- R92: PRINT completes in every state: one value is appended to the sink, no register is written. That it completes in every
state rests on decision D15, the sink always accepts (log 18). -/
def Obligations.PrintAppendsRegister : Prop :=
  ∀ (r : RegIdx) (s : State),
    (∀ b, b < 512 → decode (BitVec.ofNat 16 (0xA000 + r.val * 512 + b)) = .ok (.print r)) ∧
    ∃ t, exec (.print r) s = .next t ∧ t.out = s.out ++ [s.readReg r] ∧ RegsSame s t ∧ CommonFrame s t ∧
      t.fkind = s.fkind ∧ t.incur = s.incur ∧ RetiresAt s t (s.pc + 2)

/-- R93 with decision D7 (log 10): READ completes when the source answers an integer `n`: `x[r]` is `n mod 256` in 0 to 255
and exactly one item is consumed. -/
def Obligations.ReadStoresInputModulo256 : Prop :=
  ∀ (r : RegIdx) (s : State) (n : Int), s.input[s.incur]? = some (.value n) →
    ∃ t, exec (.read r) s = .next t ∧ ((t.readReg r).toNat : Int) = n % 256 ∧ RegsSameBut r s t ∧ CommonFrame s t ∧
      t.fkind = s.fkind ∧ t.out = s.out ∧ t.incur = s.incur + 1 ∧ RetiresAt s t (s.pc + 2)

/-- R95: READ with no input left, or with an item that is not a number, faults with `InputExhausted`; `x[r]` and `pc` keep
their values and no item is consumed. What the fault leaves is decision D9 (log 11); that a malformed item is answered
`Exhausted` and not consumed is decision D16 (log 7). -/
def Obligations.ReadFaultsWhenInputExhausted : Prop :=
  ∀ (r : RegIdx) (s : State),
    s.input[s.incur]? = some .malformed ∨ (s.input[s.incur]? = none ∧ s.inputEnd = .exhausted) →
    ∃ t, exec (.read r) s = .next t ∧ t.status = .faulted ∧ t.fkind = some .inputExhausted ∧ StandsStill s t

/-- R94 with decision D16 (log 5): while the source has not answered, READ rests in `Executing` and nothing else changes. -/
def Obligations.ReadWaitsWhileUnanswered : Prop :=
  ∀ (r : RegIdx) (s : State), s.input[s.incur]? = none → s.inputEnd = .unanswered →
    ∃ t, exec (.read r) s = .next t ∧ t.status = .executing ∧ t.fkind = s.fkind ∧ StandsStill s t

/-- R94: the wait is lifted by the environment only. A waiting READ repeats its state; a delivered integer completes it; a
delivered item that is not a number faults it (R95), and so does the end of the source (log 5, log 6, log 7, log 10, log 11). -/
def Obligations.WaitIsLiftedByTheSourceOnly : Prop :=
  ∀ (s : State) (r : RegIdx), s.icount.toNat ≤ 16 → s.status = .executing → decode s.ir = .ok (.read r) →
    s.incur = s.input.length → s.inputEnd = .unanswered →
    step s = .next s ∧
    (∀ n : Int, ∃ t, step (s.deliver (.value n)) = .next t ∧ ((t.readReg r).toNat : Int) = n % 256 ∧
      RegsSameBut r s t ∧ t.incur = s.incur + 1 ∧ RetiresAt s t (s.pc + 2)) ∧
    (∃ t, step (s.deliver .malformed) = .next t ∧ t.status = .faulted ∧ t.fkind = some .inputExhausted ∧ t.pc = s.pc ∧
      t.incur = s.incur ∧ t.out = s.out ∧ RegsSame s t) ∧
    (∃ t, step s.closeInput = .next t ∧ t.status = .faulted ∧ t.fkind = some .inputExhausted ∧ t.pc = s.pc ∧
      t.incur = s.incur ∧ t.out = s.out ∧ RegsSame s t)

/-- R97, R99, R101: BLT with an even target and a true unsigned comparison completes with `pc` at the target itself, and
halts there if the target is at or past the halt bound. -/
def Obligations.BltTakenLandsOnTarget : Prop :=
  ∀ (ra rb : RegIdx) (target5 : Target) (s : State), target5.toNat % 2 = 0 →
    (s.readReg ra).toNat < (s.readReg rb).toNat →
    ∃ t, exec (.blt ra rb target5) s = .next t ∧ t.pc.toNat = target5.toNat ∧ RegsSame s t ∧ QuietFrame s t ∧
      RetiresAt s t (BitVec.ofNat 16 target5.toNat)

/-- R97: BLT with an even target and a false comparison, equality among them, completes by falling through. -/
def Obligations.BltNotTakenFallsThrough : Prop :=
  ∀ (ra rb : RegIdx) (target5 : Target) (s : State), target5.toNat % 2 = 0 →
    (s.readReg rb).toNat ≤ (s.readReg ra).toNat →
    ∃ t, exec (.blt ra rb target5) s = .next t ∧ RegsSame s t ∧ QuietFrame s t ∧ RetiresAt s t (s.pc + 2)

/-- R98: an odd target faults with `MisalignedBranch` whatever the registers hold; the decoder accepts such a word; on the
fault nothing but `status` and `fkind` changes, which is decision D9 (log 11). -/
def Obligations.BltOddTargetAlwaysFaults : Prop :=
  ∀ (ra rb : RegIdx) (target5 : Target) (s : State), target5.toNat % 2 = 1 →
    decode (BitVec.ofNat 16 (0xE000 + ra.val * 512 + rb.val * 32 + target5.toNat)) = .ok (.blt ra rb target5) ∧
    ∃ t, exec (.blt ra rb target5) s = .next t ∧ t.status = .faulted ∧ t.fkind = some .misalignedBranch ∧
      StandsStill s t

/-! ### Whole-machine rules -/

/-- R75: after an instruction that completed, the engine is `Halted` exactly when the new `pc` is at or past `2 × icount`,
and otherwise `Fetching`. -/
def Obligations.HaltTestDecidesTheNextStatus : Prop :=
  ∀ (i : Instr) (s t : State), exec i s = .next t → t.status ≠ .faulted → t.status ≠ .executing →
    (t.status = .halted ↔ 2 * s.icount.toNat ≤ t.pc.toNat) ∧ (t.status = .fetching ↔ t.pc.toNat < 2 * s.icount.toNat)

/-- R79, R37, R96: what one iteration may touch. It never writes memory or a launch parameter; it writes at most one register,
the instruction's destination, none for PRINT and BLT; `ir` is the word fetched; only PRINT changes the sink, only READ the
cursor, only a fault `fkind`; only BLT can make `pc` anything but `pc + 2`. Model's choices: on a fault `pc` stands (D9,
log 11); a wait is a step (log 5), in which `ir` is kept (log 25) and `pc` stands. -/
def Obligations.IterationTouchesOnlyItsOwn : Prop :=
  ∀ s t : State, step s = .next t →
    (∀ a : Nat, t.mem.read a = s.mem.read a) ∧ t.icount = s.icount ∧ t.input = s.input ∧ t.inputEnd = s.inputEnd ∧
    (∃ rd, RegsSameBut rd s t) ∧ (t.fkind = s.fkind ∨ t.status = .faulted) ∧
    (s.status = .fetching → s.mem.readWord s.pc.toNat = some t.ir) ∧
    (s.status = .executing → t.ir = s.ir) ∧
    ∀ i, decode t.ir = .ok i →
      (∀ rd imm8, i = .loadi rd imm8 → RegsSameBut rd s t) ∧
      (∀ rd a b, i = .add rd a b ∨ i = .and rd a b ∨ i = .or rd a b ∨ i = .xor rd a b → RegsSameBut rd s t) ∧
      (∀ r, i = .read r → RegsSameBut r s t) ∧
      ((∃ r, i = .print r) ∨ (∃ ra rb g, i = .blt ra rb g) → RegsSame s t) ∧
      ((∀ r, i ≠ .print r) → t.out = s.out) ∧
      ((∀ r, i ≠ .read r) → t.incur = s.incur) ∧
      ((∀ ra rb g, i ≠ .blt ra rb g) →
        t.pc = s.pc + 2 ∨ (t.pc = s.pc ∧ (t.status = .faulted ∨ t.status = .executing)))

/-- R108, R109: a step that faults changes no register, no output, no cursor, no memory and not `pc`, which still names the
faulting instruction. -/
def Obligations.FaultsArePrecise : Prop :=
  ∀ s t : State, step s = .next t → t.status = .faulted →
    RegsSame s t ∧ t.pc = s.pc ∧ t.out = s.out ∧ t.incur = s.incur ∧ (∀ a : Nat, t.mem.read a = s.mem.read a)

/-- R103 to R105, R107: a step faults only with `MisalignedBranch`, on a BLT word with its lowest bit set, or with
`InputExhausted`, on a READ word with an item that is not a number at the cursor, or none and a source that reports its end (never one that
has not answered, R94); `ir` holds the word, `pc` its address, and the cursor stands (D9, log 11; D16, log 7). -/
def Obligations.OnlyOddBltAndExhaustedReadFault : Prop :=
  ∀ s t : State, step s = .next t → t.status = .faulted →
    t.pc = s.pc ∧ t.incur = s.incur ∧
    ((t.fkind = some .misalignedBranch ∧ t.ir.toNat / 8192 = 7 ∧ t.ir.toNat % 2 = 1) ∨
    (t.fkind = some .inputExhausted ∧ t.ir.toNat / 8192 = 6 ∧
      (s.input[s.incur]? = some .malformed ∨ (s.input[s.incur]? = none ∧ s.inputEnd = .exhausted))))

/-- R103: "no run from any state raises this fault": no step makes `fkind` `InvalidOpcode`. -/
def Obligations.InvalidOpcodeIsNeverRaised : Prop :=
  ∀ s t : State, step s = .next t → t.fkind = some .invalidOpcode → s.fkind = some .invalidOpcode

/-- R82 (f), R92, R93: a step's output extends the sink by at most one value, and its cursor advances by at most one. -/
def Obligations.SinkOnlyGrowsCursorOnlyAdvances : Prop :=
  ∀ s t : State, step s = .next t →
    (t.out = s.out ∨ ∃ v, t.out = s.out ++ [v]) ∧ (t.incur = s.incur ∨ t.incur = s.incur + 1)

/-- R15: execution never reads `ir` as an operand: with any other word in `ir` the same instruction does the same. -/
def Obligations.ExecutionDoesNotReadIr : Prop :=
  ∀ (i : Instr) (s t : State) (v : Word), exec i s = .next t → exec i { s with ir := v } = .next { t with ir := v }

/-- R33, D11: no step reads a byte at or above the halt bound: two memories that agree below it give the same outcome. -/
def Obligations.BytesPastTheProgramAreNeverRead : Prop :=
  ∀ (s : State) (m : Memory), (∀ a : Nat, a < 2 * s.icount.toNat → m.read a = s.mem.read a) →
    (∀ t, step s = .next t → step { s with mem := m } = .next { t with mem := m }) ∧
    (∀ r, step s = .fault r → step { s with mem := m } = .fault r) ∧
    (∀ r, step s = .refused r → step { s with mem := m } = .refused r)

/-- R97 corner case, R83: a taken branch to its own address never ends: after any number of steps `pc` is the same and no
register has changed. -/
def Obligations.TakenSelfBranchNeverEnds : Prop :=
  ∀ (s : State) (w : Word) (ra rb : RegIdx) (g : Target) (k : Nat), s.icount.toNat ≤ 16 → s.status = .fetching →
    s.pc.toNat % 2 = 0 → s.pc.toNat < 2 * s.icount.toNat → s.mem.readWord s.pc.toNat = some w →
    decode w = .ok (.blt ra rb g) → g.toNat = s.pc.toNat → (s.readReg ra).toNat < (s.readReg rb).toNat →
    ∃ t, core.run k s = .next t ∧ t.pc = s.pc ∧ t.status = .fetching ∧ RegsSame s t ∧ t.out = s.out

/-! ### Invariant, progress, reset and launch -/

/-- R28, R29, R122: what reset leaves, for any launch parameters: registers, `pc`, no fault, empty sink, cursor at the first
item; `Fetching` if there is a program. `ir` = 0x0000 is decision D4 (log 8), `Halted` on an empty program decision D5 (log 9). -/
def Obligations.ResetLeavesTheStatedValues : Prop :=
  ∀ (m : Memory) (n : BitVec 5) (input : List InputItem) (e : InputEnd),
    (∀ r : RegIdx, (State.start m n input e).readReg r = 0) ∧ (State.start m n input e).pc = 0 ∧
    (State.start m n input e).ir = 0 ∧ (State.start m n input e).fkind = none ∧
    (State.start m n input e).out = [] ∧ (State.start m n input e).incur = 0 ∧
    (State.start m n input e).mem = m ∧ (State.start m n input e).icount = n ∧
    (1 ≤ n.toNat → (State.start m n input e).status = .fetching) ∧
    (n.toNat = 0 → (State.start m n input e).status = .halted)

/-- The reset state is the launch of the empty program, and meets the invariant (its launch parameters: log 3). -/
def Obligations.ResetStateMeetsInvariant : Prop :=
  State.reset = State.start [] 0 [] .exhausted ∧ Inv State.reset

/-- R124: the first instruction fetched after reset is `MemRead(0, 2)`, on every launch of a program. -/
def Obligations.ExecutionEntersAtAddressZero : Prop :=
  ∀ (m : Memory) (n : BitVec 5) (input : List InputItem) (e : InputEnd) (w : Word), 1 ≤ n.toNat → m.readWord 0 = some w →
    ∃ t, (State.start m n input e).fetch = .ok t ∧ t.ir = w ∧ t.pc = 0

/-- R123 with decision D17 (log 16): the reset event, in any state, restores `x`, `pc`, `ir`, `status` and `fkind` and does not
change `mem` or `icount`. -/
def Obligations.ResetEventRestoresTheCore : Prop :=
  ∀ s : State, (∀ r : RegIdx, s.resetEvent.readReg r = 0) ∧ s.resetEvent.pc = 0 ∧ s.resetEvent.ir = 0 ∧
    s.resetEvent.fkind = none ∧ (1 ≤ s.icount.toNat → s.resetEvent.status = .fetching) ∧
    (s.icount.toNat = 0 → s.resetEvent.status = .halted) ∧
    (∀ a : Nat, s.resetEvent.mem.read a = s.mem.read a) ∧ s.resetEvent.icount = s.icount

/-- R119, R125, R126: an even number of bytes, at most 32, loads: the image reads back from address 0, in canonical form,
with no value past its end, and the engine starts in a state that meets the invariant. Model's choices: an address past the
image has no value, where R33 leaves the byte unspecified (log 2); the empty image starts `Halted` (D5, log 9). -/
def Obligations.LoadedImageStartsInInvariant : Prop :=
  ∀ (bytes : List Byte) (input : List InputItem) (e : InputEnd), bytes.length % 2 = 0 → bytes.length ≤ 32 →
    ∃ s, loadAndStart bytes input e = .ok s ∧ s.icount.toNat = bytes.length / 2 ∧
      (∀ a : Nat, s.mem.read a = bytes[a]?) ∧ s.input = input ∧ s.inputEnd = e ∧ Inv s

/-- R119: odd length alone is `TruncatedInstruction`, more than 16 words alone is `TooManyInstructions`; each file that is both
raises one of the two, which the spec leaves open and which may differ from file to file (log 17). -/
def Obligations.LoaderErrorsByLength : Prop :=
  ∀ bytes : List Byte,
    (bytes.length % 2 = 1 → bytes.length ≤ 32 → loadBytes bytes = .error .truncatedInstruction) ∧
    (bytes.length % 2 = 0 → 32 < bytes.length → loadBytes bytes = .error .tooManyInstructions) ∧
    (bytes.length % 2 = 1 → 32 < bytes.length →
      loadBytes bytes = .error .truncatedInstruction ∨ loadBytes bytes = .error .tooManyInstructions)

/-- R82, R29: every step keeps the invariant, from every state that meets it. -/
def Obligations.StepKeepsInvariant : Prop :=
  ∀ s t : State, Inv s → step s = .next t → Inv t

/-- The environment's moves keep the invariant too, so that a run that contains them stays in it: an item delivered, the source
closed (R24; log 6), and the reset event in any status (R123, D17; log 16). -/
def Obligations.EnvironmentMovesKeepInvariant : Prop :=
  ∀ s : State, Inv s → (∀ item : InputItem, Inv (s.deliver item)) ∧ Inv s.closeInput ∧ Inv s.resetEvent

/-- R39, R71, R134: from every state that meets the invariant, an engine that is not `Halted` or `Faulted` has a next state:
no fetch is misaligned, out of bounds or of a byte without a value. From `Executing` it is READ's wait, whose hold the model
answers with a next state (log 5). -/
def Obligations.EnabledEngineAlwaysSteps : Prop :=
  ∀ s : State, Inv s → s.status = .fetching ∨ s.status = .executing → ∃ t, step s = .next t

/-- R67, R66, R120: the disassembly of a loaded image always completes, one line per instruction in ascending order, line `k`
for the word at byte `2k`; the text of a line is decision D2 (log 19). -/
def Obligations.DisassemblyListsEveryInstruction : Prop :=
  ∀ s : State, (∀ a : Nat, a < 2 * s.icount.toNat → (s.mem.read a).isSome = true) →
    ∃ lines, disassemble s = .ok lines ∧ lines.length = s.icount.toNat ∧
      ∀ k, k < s.icount.toNat → ∃ w i, s.mem.readWord (2 * k) = some w ∧ decode w = .ok i ∧
        lines[k]? = some (Nat.repr (2 * k) ++ ": " ++ asmText i)
end

