-- ==== Sys2Proof/Laws/Decode.lean ====
section
/-! SUPPORT. Small laws of the extractor, the byte order and the decoder, in numbers that omega works with. -/

namespace Sys2Proof

@[simp] theorem wordOfBytes_toNat (hi lo : Byte) : (wordOfBytes hi lo).toNat = hi.toNat * 256 + lo.toNat := by
  have := hi.isLt
  have := lo.isLt
  simp only [wordOfBytes, BitVec.toNat_ofNat]
  omega

@[simp] theorem highByte_toNat (w : Word) : (highByte w).toNat = w.toNat / 256 := by
  have := w.isLt
  simp only [highByte, BitVec.toNat_ofNat]
  omega

@[simp] theorem lowByte_toNat (w : Word) : (lowByte w).toNat = w.toNat % 256 := by
  simp only [lowByte, BitVec.toNat_ofNat]
  omega

/-- The two bytes of a word make the word again. -/
@[simp] theorem wordOfBytes_bytes (w : Word) : wordOfBytes (highByte w) (lowByte w) = w := by
  apply BitVec.eq_of_toNat_eq
  simp only [wordOfBytes_toNat, highByte_toNat, lowByte_toNat]
  omega

/-- The opcode field as a quotient (R48). -/
theorem extractBits_opcode (w : Word) : extractBits w 0 2 = w.toNat / 8192 := by
  have := w.isLt
  simp only [extractBits]
  omega

theorem extractBits_lt (w : Word) (a b : Nat) (h : a ≤ b ∧ b ≤ 15) : extractBits w a b h < 2 ^ (b - a + 1) :=
  Nat.mod_lt _ (Nat.two_pow_pos _)

@[simp] theorem encodeI_toNat (op : Nat) (rd : RegIdx) (imm8 : Byte) (h : op < 8) :
    (encodeI op rd imm8).toNat = op * 8192 + rd.val * 512 + imm8.toNat * 2 := by
  have := imm8.isLt
  simp only [encodeI, BitVec.toNat_ofNat]
  omega

@[simp] theorem encodeR_toNat (op : Nat) (rd rs1 rs2 : RegIdx) (h : op < 8) :
    (encodeR op rd rs1 rs2).toNat = op * 8192 + rs1.val * 512 + rs2.val * 32 + rd.val * 2 := by
  simp only [encodeR, BitVec.toNat_ofNat]
  omega

@[simp] theorem encodeS_toNat (op : Nat) (r : RegIdx) (h : op < 8) :
    (encodeS op r).toNat = op * 8192 + r.val * 512 := by
  simp only [encodeS, BitVec.toNat_ofNat]
  omega

@[simp] theorem encodeB_toNat (op : Nat) (ra rb : RegIdx) (t : Target) (h : op < 8) :
    (encodeB op ra rb t).toNat = op * 8192 + ra.val * 512 + rb.val * 32 + t.toNat := by
  have := t.isLt
  simp only [encodeB, BitVec.toNat_ofNat]
  omega

end Sys2Proof
end

