-- ==== Sys2Proof/Laws/State.lean ====
section
/-! SUPPORT. One lemma per field per state update, true by rfl, and reads of registers after a write. -/

namespace Sys2Proof.Machine

variable (s : State)

@[simp] theorem State.writeReg_x (i : RegIdx) (v : Byte) : (s.writeReg i v).x = s.x.set i.val v := rfl
@[simp] theorem State.writeReg_pc (i : RegIdx) (v : Byte) : (s.writeReg i v).pc = s.pc := rfl
@[simp] theorem State.writeReg_ir (i : RegIdx) (v : Byte) : (s.writeReg i v).ir = s.ir := rfl
@[simp] theorem State.writeReg_status (i : RegIdx) (v : Byte) : (s.writeReg i v).status = s.status := rfl
@[simp] theorem State.writeReg_fkind (i : RegIdx) (v : Byte) : (s.writeReg i v).fkind = s.fkind := rfl
@[simp] theorem State.writeReg_out (i : RegIdx) (v : Byte) : (s.writeReg i v).out = s.out := rfl
@[simp] theorem State.writeReg_incur (i : RegIdx) (v : Byte) : (s.writeReg i v).incur = s.incur := rfl
@[simp] theorem State.writeReg_mem (i : RegIdx) (v : Byte) : (s.writeReg i v).mem = s.mem := rfl
@[simp] theorem State.writeReg_icount (i : RegIdx) (v : Byte) : (s.writeReg i v).icount = s.icount := rfl
@[simp] theorem State.writeReg_input (i : RegIdx) (v : Byte) : (s.writeReg i v).input = s.input := rfl
@[simp] theorem State.writeReg_inputEnd (i : RegIdx) (v : Byte) : (s.writeReg i v).inputEnd = s.inputEnd := rfl

@[simp] theorem State.retire_x (p : Word) : (s.retire p).x = s.x := rfl
@[simp] theorem State.retire_pc (p : Word) : (s.retire p).pc = p := rfl
@[simp] theorem State.retire_ir (p : Word) : (s.retire p).ir = s.ir := rfl
@[simp] theorem State.retire_status (p : Word) : (s.retire p).status = haltTest s.haltBound p := rfl
@[simp] theorem State.retire_fkind (p : Word) : (s.retire p).fkind = s.fkind := rfl
@[simp] theorem State.retire_out (p : Word) : (s.retire p).out = s.out := rfl
@[simp] theorem State.retire_incur (p : Word) : (s.retire p).incur = s.incur := rfl
@[simp] theorem State.retire_mem (p : Word) : (s.retire p).mem = s.mem := rfl
@[simp] theorem State.retire_icount (p : Word) : (s.retire p).icount = s.icount := rfl
@[simp] theorem State.retire_input (p : Word) : (s.retire p).input = s.input := rfl
@[simp] theorem State.retire_inputEnd (p : Word) : (s.retire p).inputEnd = s.inputEnd := rfl

@[simp] theorem State.raiseFault_x (k : FaultKind) : (s.raiseFault k).x = s.x := rfl
@[simp] theorem State.raiseFault_pc (k : FaultKind) : (s.raiseFault k).pc = s.pc := rfl
@[simp] theorem State.raiseFault_ir (k : FaultKind) : (s.raiseFault k).ir = s.ir := rfl
@[simp] theorem State.raiseFault_status (k : FaultKind) : (s.raiseFault k).status = .faulted := rfl
@[simp] theorem State.raiseFault_fkind (k : FaultKind) : (s.raiseFault k).fkind = some k := rfl
@[simp] theorem State.raiseFault_out (k : FaultKind) : (s.raiseFault k).out = s.out := rfl
@[simp] theorem State.raiseFault_incur (k : FaultKind) : (s.raiseFault k).incur = s.incur := rfl
@[simp] theorem State.raiseFault_mem (k : FaultKind) : (s.raiseFault k).mem = s.mem := rfl
@[simp] theorem State.raiseFault_icount (k : FaultKind) : (s.raiseFault k).icount = s.icount := rfl
@[simp] theorem State.raiseFault_input (k : FaultKind) : (s.raiseFault k).input = s.input := rfl
@[simp] theorem State.raiseFault_inputEnd (k : FaultKind) : (s.raiseFault k).inputEnd = s.inputEnd := rfl

@[simp] theorem State.emit_x (v : Byte) : (s.emit v).x = s.x := rfl
@[simp] theorem State.emit_pc (v : Byte) : (s.emit v).pc = s.pc := rfl
@[simp] theorem State.emit_ir (v : Byte) : (s.emit v).ir = s.ir := rfl
@[simp] theorem State.emit_status (v : Byte) : (s.emit v).status = s.status := rfl
@[simp] theorem State.emit_fkind (v : Byte) : (s.emit v).fkind = s.fkind := rfl
@[simp] theorem State.emit_out (v : Byte) : (s.emit v).out = s.out ++ [v] := rfl
@[simp] theorem State.emit_incur (v : Byte) : (s.emit v).incur = s.incur := rfl
@[simp] theorem State.emit_mem (v : Byte) : (s.emit v).mem = s.mem := rfl
@[simp] theorem State.emit_icount (v : Byte) : (s.emit v).icount = s.icount := rfl
@[simp] theorem State.emit_input (v : Byte) : (s.emit v).input = s.input := rfl
@[simp] theorem State.emit_inputEnd (v : Byte) : (s.emit v).inputEnd = s.inputEnd := rfl

@[simp] theorem State.consumeInput_x : (s.consumeInput).x = s.x := rfl
@[simp] theorem State.consumeInput_pc : (s.consumeInput).pc = s.pc := rfl
@[simp] theorem State.consumeInput_ir : (s.consumeInput).ir = s.ir := rfl
@[simp] theorem State.consumeInput_status : (s.consumeInput).status = s.status := rfl
@[simp] theorem State.consumeInput_fkind : (s.consumeInput).fkind = s.fkind := rfl
@[simp] theorem State.consumeInput_out : (s.consumeInput).out = s.out := rfl
@[simp] theorem State.consumeInput_incur : (s.consumeInput).incur = s.incur + 1 := rfl
@[simp] theorem State.consumeInput_mem : (s.consumeInput).mem = s.mem := rfl
@[simp] theorem State.consumeInput_icount : (s.consumeInput).icount = s.icount := rfl
@[simp] theorem State.consumeInput_input : (s.consumeInput).input = s.input := rfl
@[simp] theorem State.consumeInput_inputEnd : (s.consumeInput).inputEnd = s.inputEnd := rfl

@[simp] theorem State.waitForInput_x : (s.waitForInput).x = s.x := rfl
@[simp] theorem State.waitForInput_pc : (s.waitForInput).pc = s.pc := rfl
@[simp] theorem State.waitForInput_ir : (s.waitForInput).ir = s.ir := rfl
@[simp] theorem State.waitForInput_status : (s.waitForInput).status = .executing := rfl
@[simp] theorem State.waitForInput_fkind : (s.waitForInput).fkind = s.fkind := rfl
@[simp] theorem State.waitForInput_out : (s.waitForInput).out = s.out := rfl
@[simp] theorem State.waitForInput_incur : (s.waitForInput).incur = s.incur := rfl
@[simp] theorem State.waitForInput_mem : (s.waitForInput).mem = s.mem := rfl
@[simp] theorem State.waitForInput_icount : (s.waitForInput).icount = s.icount := rfl
@[simp] theorem State.waitForInput_input : (s.waitForInput).input = s.input := rfl
@[simp] theorem State.waitForInput_inputEnd : (s.waitForInput).inputEnd = s.inputEnd := rfl

@[simp] theorem State.writeReg_haltBound (i : RegIdx) (v : Byte) : (s.writeReg i v).haltBound = s.haltBound := rfl
@[simp] theorem State.retire_haltBound (p : Word) : (s.retire p).haltBound = s.haltBound := rfl
@[simp] theorem State.retire_readReg (p : Word) (r : RegIdx) :
    (s.retire p).readReg r = s.readReg r := rfl
@[simp] theorem State.raiseFault_haltBound (k : FaultKind) : (s.raiseFault k).haltBound = s.haltBound := rfl
@[simp] theorem State.raiseFault_readReg (k : FaultKind) (r : RegIdx) :
    (s.raiseFault k).readReg r = s.readReg r := rfl
@[simp] theorem State.emit_haltBound (v : Byte) : (s.emit v).haltBound = s.haltBound := rfl
@[simp] theorem State.emit_readReg (v : Byte) (r : RegIdx) :
    (s.emit v).readReg r = s.readReg r := rfl
@[simp] theorem State.consumeInput_haltBound : (s.consumeInput).haltBound = s.haltBound := rfl
@[simp] theorem State.consumeInput_readReg (r : RegIdx) :
    (s.consumeInput).readReg r = s.readReg r := rfl
@[simp] theorem State.waitForInput_haltBound : (s.waitForInput).haltBound = s.haltBound := rfl
@[simp] theorem State.waitForInput_readReg (r : RegIdx) :
    (s.waitForInput).readReg r = s.readReg r := rfl

/-- Reading a register after a write: the value written if it is that register, else what it held. -/
theorem State.readReg_writeReg (i r : RegIdx) (v : Byte) :
    (s.writeReg i v).readReg r = if r = i then v else s.readReg r := by
  simp only [State.readReg, State.writeReg, Vector.getElem_set, Fin.ext_iff, eq_comm]

@[simp] theorem State.readReg_writeReg_same (i : RegIdx) (v : Byte) : (s.writeReg i v).readReg i = v := by
  simp [State.readReg_writeReg]

theorem State.readReg_writeReg_other (i r : RegIdx) (v : Byte) (h : r ≠ i) :
    (s.writeReg i v).readReg r = s.readReg r := by
  simp [State.readReg_writeReg, h]

/-- Every register is 0 after reset (R28). -/
@[simp] theorem State.reset_readReg (r : RegIdx) : State.reset.readReg r = 0 := by
  simp [State.readReg, State.reset]

end Sys2Proof.Machine
end

