-- ==== Sys2Proof/Laws/Launch.lean ====
section
/-! SUPPORT. The environment's moves field by field: what an item delivered, the close of the source and the reset event
change, and that they change nothing else. -/

namespace Sys2Proof.Machine

variable (s : State)

/-- Everything a delivery can do: append one item while the source is open, else nothing (R24). -/
theorem deliver_cases (item : InputItem) :
    (s.inputEnd = .unanswered ∧ s.deliver item = { s with input := s.input ++ [item] }) ∨
    (s.inputEnd = .exhausted ∧ s.deliver item = s) := by
  unfold State.deliver
  cases s.inputEnd <;> simp

/-- The item delivered to an open source whose listed items are all consumed stands at the cursor. -/
theorem deliver_at_cursor (item : InputItem) (hi : s.incur = s.input.length) (he : s.inputEnd = .unanswered) :
    (s.deliver item).input[(s.deliver item).incur]? = some item := by
  simp [State.deliver, he, hi]

@[simp] theorem State.deliver_x (item : InputItem) : (s.deliver item).x = s.x := by
  rcases deliver_cases s item with ⟨_, h⟩ | ⟨_, h⟩ <;> rw [h]
@[simp] theorem State.deliver_pc (item : InputItem) : (s.deliver item).pc = s.pc := by
  rcases deliver_cases s item with ⟨_, h⟩ | ⟨_, h⟩ <;> rw [h]
@[simp] theorem State.deliver_ir (item : InputItem) : (s.deliver item).ir = s.ir := by
  rcases deliver_cases s item with ⟨_, h⟩ | ⟨_, h⟩ <;> rw [h]
@[simp] theorem State.deliver_status (item : InputItem) : (s.deliver item).status = s.status := by
  rcases deliver_cases s item with ⟨_, h⟩ | ⟨_, h⟩ <;> rw [h]
@[simp] theorem State.deliver_fkind (item : InputItem) : (s.deliver item).fkind = s.fkind := by
  rcases deliver_cases s item with ⟨_, h⟩ | ⟨_, h⟩ <;> rw [h]
@[simp] theorem State.deliver_out (item : InputItem) : (s.deliver item).out = s.out := by
  rcases deliver_cases s item with ⟨_, h⟩ | ⟨_, h⟩ <;> rw [h]
@[simp] theorem State.deliver_incur (item : InputItem) : (s.deliver item).incur = s.incur := by
  rcases deliver_cases s item with ⟨_, h⟩ | ⟨_, h⟩ <;> rw [h]
@[simp] theorem State.deliver_mem (item : InputItem) : (s.deliver item).mem = s.mem := by
  rcases deliver_cases s item with ⟨_, h⟩ | ⟨_, h⟩ <;> rw [h]
@[simp] theorem State.deliver_icount (item : InputItem) : (s.deliver item).icount = s.icount := by
  rcases deliver_cases s item with ⟨_, h⟩ | ⟨_, h⟩ <;> rw [h]
@[simp] theorem State.deliver_inputEnd (item : InputItem) : (s.deliver item).inputEnd = s.inputEnd := by
  rcases deliver_cases s item with ⟨_, h⟩ | ⟨_, h⟩ <;> rw [h]

@[simp] theorem State.closeInput_x : s.closeInput.x = s.x := rfl
@[simp] theorem State.closeInput_pc : s.closeInput.pc = s.pc := rfl
@[simp] theorem State.closeInput_ir : s.closeInput.ir = s.ir := rfl
@[simp] theorem State.closeInput_status : s.closeInput.status = s.status := rfl
@[simp] theorem State.closeInput_fkind : s.closeInput.fkind = s.fkind := rfl
@[simp] theorem State.closeInput_out : s.closeInput.out = s.out := rfl
@[simp] theorem State.closeInput_incur : s.closeInput.incur = s.incur := rfl
@[simp] theorem State.closeInput_mem : s.closeInput.mem = s.mem := rfl
@[simp] theorem State.closeInput_icount : s.closeInput.icount = s.icount := rfl
@[simp] theorem State.closeInput_input : s.closeInput.input = s.input := rfl
@[simp] theorem State.closeInput_inputEnd : s.closeInput.inputEnd = .exhausted := rfl

@[simp] theorem State.resetEvent_x : s.resetEvent.x = State.reset.x := rfl
@[simp] theorem State.resetEvent_pc : s.resetEvent.pc = 0 := rfl
@[simp] theorem State.resetEvent_ir : s.resetEvent.ir = 0 := rfl
@[simp] theorem State.resetEvent_status : s.resetEvent.status = haltTest s.haltBound 0 := rfl
@[simp] theorem State.resetEvent_fkind : s.resetEvent.fkind = none := rfl
@[simp] theorem State.resetEvent_out : s.resetEvent.out = s.out := rfl
@[simp] theorem State.resetEvent_incur : s.resetEvent.incur = s.incur := rfl
@[simp] theorem State.resetEvent_mem : s.resetEvent.mem = s.mem := rfl
@[simp] theorem State.resetEvent_icount : s.resetEvent.icount = s.icount := rfl
@[simp] theorem State.resetEvent_input : s.resetEvent.input = s.input := rfl
@[simp] theorem State.resetEvent_inputEnd : s.resetEvent.inputEnd = s.inputEnd := rfl

end Sys2Proof.Machine
end

