-- ==== Sys2Proof/Laws/Memory.lean ====
section
/-! SUPPORT. Memory: reads after writes, the canonical form, and that every memory operation keeps it. -/

namespace Sys2Proof.Machine

/-- Cells at or above `lo` leave everything below `lo` without a value. -/
theorem Memory.read_below (m : Memory) (lo a : Nat) (h : Memory.wfFrom lo m = true) (ha : a < lo) : Memory.read m a = none := by
  induction m generalizing lo with
  | nil => rfl
  | cons c m ih =>
    obtain ⟨b, u⟩ := c
    simp only [Memory.wfFrom, Bool.and_eq_true, decide_eq_true_eq] at h
    have hne : a ≠ b := by omega
    simp [Memory.read, hne, ih (b + 1) h.2 (by omega)]

/-- A well-formed memory has no value outside the 32 bytes (R30). -/
theorem Memory.read_outside (m : Memory) (lo a : Nat) (h : Memory.wfFrom lo m = true) (ha : Config.memBytes ≤ a) :
    Memory.read m a = none := by
  induction m generalizing lo with
  | nil => rfl
  | cons c m ih =>
    obtain ⟨b, u⟩ := c
    simp only [Memory.wfFrom, Bool.and_eq_true, decide_eq_true_eq] at h
    have hne : a ≠ b := by omega
    simp [Memory.read, hne, ih (b + 1) h.2]

/-- Weakening the lower bound of the canonical form. -/
theorem Memory.wfFrom_mono (m : Memory) (lo lo' : Nat) (h : Memory.wfFrom lo m = true) (hle : lo' ≤ lo) :
    Memory.wfFrom lo' m = true := by
  cases m with
  | nil => rfl
  | cons c m =>
    obtain ⟨b, u⟩ := c
    simp only [Memory.wfFrom, Bool.and_eq_true, decide_eq_true_eq] at h ⊢
    exact ⟨⟨by omega, h.1.2⟩, h.2⟩

theorem Memory.insert_wfFrom (m : Memory) (lo a : Nat) (v : Byte) (h : Memory.wfFrom lo m = true) (hlo : lo ≤ a)
    (ha : a < Config.memBytes) : Memory.wfFrom lo (Memory.insert m a v) = true := by
  induction m generalizing lo with
  | nil => simp [Memory.insert, Memory.wfFrom, hlo, ha]
  | cons c m ih =>
    obtain ⟨b, u⟩ := c
    simp only [Memory.wfFrom, Bool.and_eq_true, decide_eq_true_eq] at h
    unfold Memory.insert
    split
    · simp only [Memory.wfFrom, Bool.and_eq_true, decide_eq_true_eq]
      exact ⟨⟨hlo, ha⟩, ⟨by omega, h.1.2⟩, h.2⟩
    · split
      · rename_i heq
        subst heq
        simp only [Memory.wfFrom, Bool.and_eq_true, decide_eq_true_eq]
        exact ⟨⟨hlo, ha⟩, h.2⟩
      · simp only [Memory.wfFrom, Bool.and_eq_true, decide_eq_true_eq]
        exact ⟨h.1, ih (b + 1) h.2 (by omega)⟩

/-- Writing a byte keeps the canonical form. -/
theorem Memory.write_wf (m : Memory) (a : Nat) (v : Byte) (h : m.wf = true) : (m.write a v).wf = true := by
  unfold Memory.write
  split
  · rename_i ha
    exact Memory.insert_wfFrom m 0 a v h (Nat.zero_le a) ha
  · exact h

theorem Memory.read_insert (m : Memory) (a b : Nat) (v : Byte) :
    (Memory.insert m a v).read b = if b = a then some v else m.read b := by
  induction m with
  | nil => simp [Memory.insert, Memory.read]
  | cons c m ih =>
    obtain ⟨d, u⟩ := c
    unfold Memory.insert
    split
    · rfl
    · split
      · rename_i heq
        subst heq
        simp only [Memory.read]
        split <;> rfl
      · simp only [Memory.read, ih]
        split
        · rename_i h1 h2 h3
          simp [h3, Ne.symm h2]
        · rfl

/-- Reading after a write inside the 32 bytes: the byte written at that address, every other byte as before. -/
theorem Memory.read_write (m : Memory) (a b : Nat) (v : Byte) (ha : a < Config.memBytes) :
    (m.write a v).read b = if b = a then some v else m.read b := by
  simp [Memory.write, ha, Memory.read_insert]

/-- An image laid out upward reads back byte by byte, and nothing else has a value (R32, R125). -/
theorem Memory.read_ofBytes (bytes : List Byte) (a b : Nat) :
    (Memory.ofBytes bytes a).read b = if a ≤ b then bytes[b - a]? else none := by
  induction bytes generalizing a with
  | nil => simp [Memory.ofBytes, Memory.read]
  | cons v vs ih =>
    simp only [Memory.ofBytes, Memory.read, ih]
    split
    · rename_i h
      simp [h]
    · split
      · rename_i hne hle
        rw [if_pos (by omega), show b - a = (b - (a + 1)) + 1 by omega, List.getElem?_cons_succ]
      · rename_i hne hle
        rw [if_neg (by omega)]

/-- An image that fits is in canonical form. -/
theorem Memory.ofBytes_wfFrom (bytes : List Byte) (lo a : Nat) (hlo : lo ≤ a) (h : a + bytes.length ≤ Config.memBytes) :
    Memory.wfFrom lo (Memory.ofBytes bytes a) = true := by
  induction bytes generalizing lo a with
  | nil => rfl
  | cons v vs ih =>
    simp only [List.length_cons] at h
    simp only [Memory.ofBytes, Memory.wfFrom, Bool.and_eq_true, decide_eq_true_eq]
    exact ⟨⟨hlo, by omega⟩, ih (a + 1) (a + 1) (Nat.le_refl _) (by omega)⟩

/-- Memory after reset is in canonical form. -/
theorem reset_mem_wf : State.reset.mem.wf = true := rfl

/-- Placing an instruction word keeps the canonical form. -/
theorem placeWord_mem_wf (s : State) (w : Word) (h : s.mem.wf = true) : (s.placeWord w).mem.wf = true :=
  Memory.write_wf _ _ _ (Memory.write_wf _ _ _ h)

/-- `readWord` answers exactly when both bytes have a value. -/
theorem Memory.readWord_eq_some (m : Memory) (a : Nat) (w : Word) :
    m.readWord a = some w ↔ ∃ hi lo, m.read a = some hi ∧ m.read (a + 1) = some lo ∧ w = wordOfBytes hi lo := by
  unfold Memory.readWord
  cases m.read a <;> cases m.read (a + 1) <;> simp [eq_comm]

end Sys2Proof.Machine
end

