-- ==== Sys2Proof/Laws/Ops.lean ====
section
/-! SUPPORT. One lemma per shared operation, saying once everything it can do: the halt test, the input source, the
fetch, the execute phase, and the step. -/

namespace Sys2Proof.Machine

@[simp] theorem haltBound_eq (s : State) : s.haltBound = 2 * s.icount.toNat := rfl

/-- The halt test answers `Halted` exactly at or past the bound, else `Fetching` (R75). -/
theorem haltTest_cases (bound : Nat) (p : Word) :
    (bound ≤ p.toNat ∧ haltTest bound p = .halted) ∨ (p.toNat < bound ∧ haltTest bound p = .fetching) := by
  by_cases h : bound ≤ p.toNat
  · exact .inl ⟨h, if_pos h⟩
  · exact .inr ⟨by omega, if_neg h⟩

/-- What `retire` leaves in `status`. -/
theorem retire_status_cases (s : State) (p : Word) :
    (2 * s.icount.toNat ≤ p.toNat ∧ (s.retire p).status = .halted) ∨
    (p.toNat < 2 * s.icount.toNat ∧ (s.retire p).status = .fetching) :=
  haltTest_cases s.haltBound p

/-- `pc + 2` does not overflow where an iteration is made (R74). -/
theorem seqPc_toNat (s : State) (h : s.pc.toNat ≤ 30) : s.seqPc.toNat = s.pc.toNat + 2 := by
  have : s.seqPc.toNat = (s.pc.toNat + 2) % 65536 := rfl
  omega

/-- `retire` ends an iteration as `RetiresAt` says, from any state with the same count. -/
theorem retire_retiresAt (s u : State) (p : Word) (h : u.icount = s.icount) : RetiresAt s (u.retire p) p := by
  refine ⟨rfl, fun hb => ?_, fun hb => ?_⟩
  · simp [haltTest, h, hb]
  · simp [haltTest, h, Nat.not_le.mpr hb]

/-- What the input source can answer, and when (R24, R95). -/
theorem askInput_cases (s : State) :
    (∃ n, s.input[s.incur]? = some (.value n) ∧ s.askInput = .value n) ∨
    (s.input[s.incur]? = some .malformed ∧ s.askInput = .exhausted) ∨
    (s.input[s.incur]? = none ∧ s.inputEnd = .exhausted ∧ s.askInput = .exhausted) ∨
    (s.input[s.incur]? = none ∧ s.inputEnd = .unanswered ∧ s.askInput = .unanswered) := by
  unfold State.askInput
  cases h : s.input[s.incur]? with
  | none => cases h2 : s.inputEnd <;> simp
  | some it => cases it <;> simp

/-- The fetch succeeds exactly on an even `pc` below the halt bound whose two bytes have a value, and then changes only
`ir` and `status` (R71). -/
theorem fetch_ok_iff (s t : State) :
    s.fetch = .ok t ↔ s.pc.toNat % 2 = 0 ∧ s.pc.toNat < 2 * s.icount.toNat ∧
      ∃ w, s.mem.readWord s.pc.toNat = some w ∧ t = { s with ir := w, status := .executing } := by
  unfold State.fetch
  by_cases h1 : s.pc.toNat % 2 = 1
  · rw [if_pos h1]
    simp [h1]
  · rw [if_neg h1]
    by_cases h2 : s.haltBound ≤ s.pc.toNat
    · rw [if_pos h2]
      rw [haltBound_eq] at h2
      simp [Nat.not_lt.mpr h2]
    · rw [if_neg h2]
      rw [haltBound_eq] at h2
      cases h : s.mem.readWord s.pc.toNat with
      | none => simp
      | some w =>
        simp only [Except.ok.injEq, Option.some.injEq, exists_eq_left']
        exact ⟨fun e => ⟨by omega, by omega, e.symm⟩, fun e => e.2.2.symm⟩

/-- Everything an instruction can do (R70): write one register, emit, take an input item, branch, fall through, wait, or
take one of the two faults. -/
theorem exec_next_cases (i : Instr) (s t : State) (h : exec i s = .next t) :
    (∃ rd v, t = (s.writeReg rd v).retire s.seqPc ∧
      ((∃ imm, i = .loadi rd imm) ∨ (∃ a b, i = .add rd a b) ∨ (∃ a b, i = .and rd a b) ∨ (∃ a b, i = .or rd a b) ∨
        ∃ a b, i = .xor rd a b)) ∨
    (∃ r, i = .print r ∧ t = (s.emit (s.readReg r)).retire s.seqPc) ∨
    (∃ r n, i = .read r ∧ s.askInput = .value n ∧
      t = (s.consumeInput.writeReg r (truncateToByte n)).retire s.seqPc) ∨
    (∃ r, i = .read r ∧ s.askInput = .exhausted ∧ t = s.raiseFault .inputExhausted) ∨
    (∃ r, i = .read r ∧ s.askInput = .unanswered ∧ t = s.waitForInput) ∨
    (∃ ra rb g, i = .blt ra rb g ∧ g.toNat % 2 = 1 ∧ t = s.raiseFault .misalignedBranch) ∨
    (∃ ra rb g, i = .blt ra rb g ∧ g.toNat % 2 = 0 ∧ (s.readReg ra).toNat < (s.readReg rb).toNat ∧
      t = s.retire (targetAddress g)) ∨
    (∃ ra rb g, i = .blt ra rb g ∧ g.toNat % 2 = 0 ∧ (s.readReg rb).toNat ≤ (s.readReg ra).toNat ∧
      t = s.retire s.seqPc) := by
  cases i with
  | loadi rd imm =>
    cases h
    exact .inl ⟨rd, _, rfl, .inl ⟨imm, rfl⟩⟩
  | add rd a b =>
    cases h
    exact .inl ⟨rd, _, rfl, .inr (.inl ⟨a, b, rfl⟩)⟩
  | and rd a b =>
    cases h
    exact .inl ⟨rd, _, rfl, .inr (.inr (.inl ⟨a, b, rfl⟩))⟩
  | or rd a b =>
    cases h
    exact .inl ⟨rd, _, rfl, .inr (.inr (.inr (.inl ⟨a, b, rfl⟩)))⟩
  | xor rd a b =>
    cases h
    exact .inl ⟨rd, _, rfl, .inr (.inr (.inr (.inr ⟨a, b, rfl⟩)))⟩
  | print r =>
    cases h
    exact .inr (.inl ⟨r, rfl, rfl⟩)
  | read r =>
    refine .inr (.inr ?_)
    simp only [exec, execRead] at h
    cases ha : s.askInput with
    | value n =>
      rw [ha] at h
      cases h
      exact .inl ⟨r, n, rfl, rfl, rfl⟩
    | exhausted =>
      rw [ha] at h
      cases h
      exact .inr (.inl ⟨r, rfl, rfl, rfl⟩)
    | unanswered =>
      rw [ha] at h
      cases h
      exact .inr (.inr (.inl ⟨r, rfl, rfl, rfl⟩))
  | blt ra rb g =>
    refine .inr (.inr (.inr (.inr (.inr ?_))))
    simp only [exec, execBlt] at h
    split at h
    · rename_i ho
      cases h
      exact .inl ⟨ra, rb, g, rfl, by simpa [targetIsOdd] using ho, rfl⟩
    · rename_i ho
      have he : g.toNat % 2 = 0 := by
        simp only [targetIsOdd, beq_iff_eq] at ho
        omega
      split at h
      · rename_i hl
        cases h
        exact .inr (.inl ⟨ra, rb, g, rfl, he, by simpa [lessUnsigned] using hl, rfl⟩)
      · rename_i hl
        cases h
        exact .inr (.inr ⟨ra, rb, g, rfl, he, by simpa [lessUnsigned] using hl, rfl⟩)

/-- A step that answers a next state ran the word in `ir`, fetched just before or held by a waiting READ (R70, R94). -/
theorem step_next_cases (s t : State) (h : step s = .next t) :
    s.icount.toNat ≤ 16 ∧
      ((s.status = .fetching ∧ ∃ u, s.fetch = .ok u ∧ execIr u = .next t) ∨ (s.status = .executing ∧ execIr s = .next t)) := by
  unfold step iterate at h
  split at h
  · cases h
  · rename_i hc
    refine ⟨by simpa [Config.maxInstr] using hc, ?_⟩
    cases hs : s.status with
    | fetching =>
      rw [hs] at h
      cases hf : s.fetch with
      | ok u =>
        rw [hf] at h
        exact .inl ⟨rfl, u, rfl, h⟩
      | error r =>
        rw [hf] at h
        cases h
    | executing =>
      rw [hs] at h
      exact .inr ⟨rfl, h⟩
    | halted =>
      rw [hs] at h
      cases h
    | faulted =>
      rw [hs] at h
      cases h

/-- A halted state of the invariant is a clean end (R81). -/
theorem halted_isCleanEnd (s : State) (hi : Inv s) (hs : s.status = .halted) : CleanEnd s := by
  refine ⟨hs, ?_⟩
  by_contra h
  have := hi.faultedExactly.2 h
  rw [hs] at this
  cases this

/-- The target address is the target's number (R56). -/
@[simp] theorem targetAddress_toNat (g : Target) : (targetAddress g).toNat = g.toNat := by
  have := g.isLt
  simp only [targetAddress, BitVec.toNat_setWidth]
  omega

end Sys2Proof.Machine
end

