-- ==== Sys2Proof/Laws/PerInstr.lean ====
section
/-! SUPPORT. A statement about every instruction as syntax, one lemma per constructor. -/

namespace Sys2Proof.Laws.EncodingShape

/-- The encoder puts the variant's opcode into the top three bits and 0 into every ignored bit (R48, R59). -/
def Statement (i : Instr) : Prop := extractBits (encode i) 0 2 = i.opcode ∧ ignoredBits (encode i) = 0

theorem loadi (rd : RegIdx) (imm8 : Byte) : Statement (.loadi rd imm8) := by
  have := imm8.isLt
  have h : (encode (.loadi rd imm8)).toNat = rd.val * 512 + imm8.toNat * 2 := by simp [encode]
  have h0 : extractBits (encode (.loadi rd imm8)) 0 2 = 0 := by rw [extractBits_opcode]; omega
  refine ⟨h0, ?_⟩
  simp only [ignoredBits, h0]
  simp only [extractBits, h]
  omega

/-- The shape of format R, once for its four opcodes. -/
theorem formatR (op : Nat) (hop : op < 5) (rd rs1 rs2 : RegIdx) :
    extractBits (encodeR op rd rs1 rs2) 0 2 = op ∧ ignoredBits (encodeR op rd rs1 rs2) = 0 := by
  have h := encodeR_toNat op rd rs1 rs2 (by omega)
  have h0 : extractBits (encodeR op rd rs1 rs2) 0 2 = op := by rw [extractBits_opcode]; omega
  refine ⟨h0, ?_⟩
  have hb : extractBits (encodeR op rd rs1 rs2) 15 15 = 0 := by simp only [extractBits, h]; omega
  unfold ignoredBits
  rw [h0]
  split <;> omega

theorem add (rd rs1 rs2 : RegIdx) : Statement (.add rd rs1 rs2) := formatR 1 (by decide) rd rs1 rs2

theorem and (rd rs1 rs2 : RegIdx) : Statement (.and rd rs1 rs2) := formatR 2 (by decide) rd rs1 rs2

theorem or (rd rs1 rs2 : RegIdx) : Statement (.or rd rs1 rs2) := formatR 3 (by decide) rd rs1 rs2

theorem xor (rd rs1 rs2 : RegIdx) : Statement (.xor rd rs1 rs2) := formatR 4 (by decide) rd rs1 rs2

theorem print (r : RegIdx) : Statement (.print r) := by
  have h : (encode (.print r)).toNat = 5 * 8192 + r.val * 512 := by simp [encode]
  have h0 : extractBits (encode (.print r)) 0 2 = 5 := by rw [extractBits_opcode]; omega
  refine ⟨h0, ?_⟩
  simp only [ignoredBits, h0]
  simp only [extractBits, h]
  omega

theorem read (r : RegIdx) : Statement (.read r) := by
  have h : (encode (.read r)).toNat = 6 * 8192 + r.val * 512 := by simp [encode]
  have h0 : extractBits (encode (.read r)) 0 2 = 6 := by rw [extractBits_opcode]; omega
  refine ⟨h0, ?_⟩
  simp only [ignoredBits, h0]
  simp only [extractBits, h]
  omega

theorem blt (ra rb : RegIdx) (target5 : Target) : Statement (.blt ra rb target5) := by
  have := target5.isLt
  have h : (encode (.blt ra rb target5)).toNat = 7 * 8192 + ra.val * 512 + rb.val * 32 + target5.toNat := by simp [encode]
  have h0 : extractBits (encode (.blt ra rb target5)) 0 2 = 7 := by rw [extractBits_opcode]; omega
  exact ⟨h0, by simp only [ignoredBits, h0]⟩

end Sys2Proof.Laws.EncodingShape
end

