-- ==== Sys2Proof/Tests/Slice0.lean ====
section
/-! SUPPORT. Tests: expected values are taken from spec/95_test_vectors.md (section named at each test) or from the rule
named; then one witness for the hypotheses of each statement that has any. -/

namespace Sys2Proof.Tests

open Sys2Proof Sys2Proof.Machine

/-- The next state, where there is one. -/
def nextOf : Host.Outcome State Fault Refusal → Option State
  | .next t => some t
  | .fault _ => none
  | .refused _ => none

/-- Ask something of the next state; false where there is none. -/
def after (o : Host.Outcome State Fault Refusal) (p : State → Bool) : Bool :=
  match nextOf o with
  | some t => p t
  | none => false

/-- A program of whole words at its start, with a closed input. -/
def prog (bytes : List Byte) (input : List InputItem) : State :=
  State.start (Memory.ofBytes bytes 0) (BitVec.ofNat 5 (bytes.length / 2)) input .exhausted

/-- A 16-instruction program space: the two bytes of one word at address 0, the rest zero. -/
def oneWord (hi lo : Byte) (input : List InputItem) : State := prog (hi :: lo :: List.replicate 30 0) input

/-- Set two registers. -/
def withRegs (s : State) (i : RegIdx) (v : Byte) (j : RegIdx) (u : Byte) : State := (s.writeReg i v).writeReg j u

/-! ### Well-formedness (R56, R68) -/

theorem test_wf_refuses_odd_target : ¬ Instr.WellFormed (.blt 1 2 5) := by decide
theorem test_wf_accepts_even_target : Instr.WellFormed (.blt 1 2 4) := by decide
theorem test_assemble_refuses_odd_target : assemble (.blt 1 2 5) = none := by decide

/-! ### Decoding: words written out bit by bit (R51 to R54; section 3) -/

theorem test_decode_loadi : decode 0b0000111100000000 = .ok (.loadi 7 128) := by decide
theorem test_decode_add : decode 0b0010000000100100 = .ok (.add 2 0 1) := by decide
theorem test_decode_and : decode 0b0100001001000110 = .ok (.and 3 1 2) := by decide
theorem test_decode_or : decode 0b0111101111011110 = .ok (.or 15 13 14) := by decide
theorem test_decode_xor_ignored_bit : decode 0b1000010000100001 = .ok (.xor 0 2 1) := by decide
theorem test_decode_print : decode 0b1011111000000000 = .ok (.print 15) := by decide
theorem test_decode_read_ignored_bits : decode 0b1100000111111111 = .ok (.read 0) := by decide
theorem test_decode_blt : decode 0b1110011010011110 = .ok (.blt 3 4 30) := by decide
theorem test_decode_all_ones : decode 0xFFFF = .ok (.blt 15 15 31) := by decide
theorem test_encode_words :
    [encode (.loadi 1 3), encode (.add 15 15 15), encode (.and 4 4 4), encode (.or 0 15 1), encode (.xor 9 9 9),
      encode (.print 2), encode (.read 10), encode (.blt 15 0 31)] =
    [0x0206, 0x3FFE, 0x4888, 0x7E20, 0x9332, 0xA400, 0xD400, 0xFE1F] := by decide
/-- Section 9: bytes A4 00 are PRINT R2, not the little-endian LOADI R0 82. -/
theorem test_big_endian :
    decodeBytes [0xA4, 0x00, 0x77] = .ok (.print 2, [0x77]) ∧ encodeBytes (.print 2) = [0xA4, 0x00] := by decide
theorem test_decode_short : decodeBytes [0xA4] = .error .truncatedInstruction := by decide
theorem test_table_word : decodeTableWord 16 0xE248 = some (.blt 1 2 8) := by decide
/-- Section 2. -/
theorem test_extract : extractBits 0xA000 0 2 = 5 ∧ extractBits 0x1234 7 14 = 26 ∧ extractBits 0x7FFF 0 0 = 0 := by decide

/-! ### Instructions, one step each (sections 4 to 7) -/

theorem test_loadi : after (step (oneWord 0x1F 0xFE [])) (fun t => t.readReg 15 == 255 && t.pc == 2 && t.ir == 0x1FFE) = true := by
  decide
theorem test_add_wraps :
    after (step (withRegs (oneWord 0x20 0x24 []) 0 255 1 2)) (fun t => t.readReg 2 == 1 && t.readReg 0 == 255) = true := by
  decide
theorem test_add_destination_is_source :
    after (step (withRegs (oneWord 0x22 0x22 []) 1 200 2 9)) (fun t => t.readReg 1 == 144) = true := by decide
theorem test_and :
    after (step (withRegs (oneWord 0x42 0x46 []) 1 0xCC 2 0xAA)) (fun t => t.readReg 3 == 0x88) = true := by decide
theorem test_or :
    after (step (withRegs (oneWord 0x7E 0x20 []) 15 0xCC 1 0xAA)) (fun t => t.readReg 0 == 0xEE) = true := by decide
theorem test_xor :
    after (step (withRegs (oneWord 0x82 0x46 []) 1 0xCC 2 0xAA)) (fun t => t.readReg 3 == 0x66) = true := by decide
theorem test_xor_clears :
    after (step (withRegs (oneWord 0x93 0x32 []) 9 77 0 5)) (fun t => t.readReg 9 == 0 && t.readReg 0 == 5) = true := by
  decide
theorem test_print :
    after (step (withRegs (oneWord 0xA5 0xFF []) 2 13 0 1)) (fun t => t.out == [13] && t.readReg 2 == 13) = true := by decide
/-- 300 gives 44, −1 gives 255; one item is consumed. -/
theorem test_read_truncates :
    after (step (oneWord 0xC0 0x00 [.value 300])) (fun t => t.readReg 0 == 44 && t.incur == 1 && t.pc == 2) = true ∧
    after (step (oneWord 0xC0 0x00 [.value (-1)])) (fun t => t.readReg 0 == 255) = true := by decide
/-- Exhausted, not a number, not yet answered. -/
theorem test_read_without_value :
    after (step (oneWord 0xC0 0x00 [])) (fun t => t.status == .faulted && t.fkind == some .inputExhausted && t.pc == 0 &&
      t.ir == 0xC000) = true ∧
    after (step (oneWord 0xC0 0x00 [.malformed])) (fun t => t.fkind == some .inputExhausted && t.incur == 0) = true ∧
    after (step { oneWord 0xC0 0x00 [] with inputEnd := .unanswered })
      (fun t => t.status == .executing && t.pc == 0 && t.ir == 0xC000) = true := by decide
/-- 127 < 128 is taken, 128 < 127 and 5 < 5 are not. -/
theorem test_blt_compares_unsigned :
    after (step (withRegs (oneWord 0xE2 0x48 []) 1 127 2 128)) (fun t => t.pc == 8 && t.status == .fetching) = true ∧
    after (step (withRegs (oneWord 0xE2 0x48 []) 1 128 2 127)) (fun t => t.pc == 2) = true ∧
    after (step (withRegs (oneWord 0xE2 0x48 []) 1 5 2 5)) (fun t => t.pc == 2) = true := by decide
/-- Section 7: a taken branch beyond the halt bound ends the run `Halted` with `pc` at the target; an odd target faults
though the comparison is false. -/
theorem test_blt_past_end_and_odd :
    after (step (withRegs (prog [0xE0, 0x3E] []) 0 0 1 1)) (fun t => t.pc == 30 && t.status == .halted) = true ∧
    after (step (withRegs (oneWord 0xE2 0x45 []) 1 9 2 5)) (fun t => t.fkind == some .misalignedBranch && t.pc == 0) = true := by
  decide
/-- Program P10's end: the last of 16 instructions leaves `pc` at 32. -/
theorem test_last_instruction_halts :
    after (step { prog (List.replicate 30 0 ++ [0xBC, 0x00]) [] with pc := 30 }) (fun t => t.pc == 32 && t.status == .halted &&
      t.out == [0]) = true := by decide

/-! ### Launch, reset, loader, text -/

/-- Program P11. -/
theorem test_empty_program_halts : (prog [] []).status = .halted ∧ State.reset.status = .halted := by decide
/-- Section 9. -/
theorem test_launch_refuses_17 : launch [] 17 [] .exhausted = .error .illegalInstructionCount := rfl
theorem test_launch_accepts_16 : (prog (List.replicate 32 0) []).status = .fetching ∧ (prog (List.replicate 32 0) []).icount = 16 := by
  decide
theorem test_place_word_runs_first :
    after (step (State.reset.withFetchWord 16 0x0014)) (fun t => t.readReg 0 == 10 && t.pc == 2) = true := by decide
theorem test_reset_event : ({ prog [0xA0, 0x00] [] with pc := 2, status := .halted } : State).resetEvent = prog [0xA0, 0x00] [] := by
  decide
/-- Example S9: 34 bytes. -/
theorem test_loader_too_many : loadBytes (List.replicate 34 0) = .error .tooManyInstructions := rfl
theorem test_loader_truncated : loadBytes [0] = .error .truncatedInstruction := rfl
/-- R66's examples. -/
theorem test_disasm_line : disasmLine 10 (.blt 0 2 6) = "10: BLT R0 R2 6" := by decide
theorem test_disasm_pass :
    disassemble (prog [0x00, 0x14, 0x20, 0x24] []) = .ok ["0: LOADI R0 10", "2: ADD R2 R0 R1"] := by decide
/-- Example S10's rendering of 13. -/
theorem test_render : renderOutput [13] = "13\n" := by decide
theorem test_codes : Status.halted.code = 2 ∧ fkindCode (some .inputExhausted) = 3 ∧ LoadError.ioUnavailable.code = 6 := by decide

/-- The launch of an empty program is the reset state (R28). -/
theorem test_reset_is_empty_launch : prog [] [] = State.reset := by decide

/-! ### Witnesses: concrete states and operands that meet the hypotheses of each statement that has any, clause by clause
where a statement has several -/

/-- A BLT taken to its own address 0: `x[0] = 1 < x[2] = 3`. -/
def selfBranch : State := withRegs (oneWord 0xE0 0x40 []) 0 1 2 3

/-- A READ that waits at address 0, reached by one step. -/
def waiting : State :=
  { prog [0xC6, 0x00] [] with ir := 0xC600, status := .executing, inputEnd := .unanswered }

/-- The last word of a full memory is next. -/
def atLast (hi lo : Byte) : State := { prog (List.replicate 30 0 ++ [hi, lo]) [] with pc := 30 }

theorem witness_ReencodeExactlyWhenIgnoredBitsZero :
    (decode 0x9FFF = .ok (.xor 15 15 15) ∧ (0x9FFF : Word).toNat / 8192 ≤ 4) ∧
    (decode 0xA000 = .ok (.print 0) ∧ (0xA000 : Word).toNat / 8192 = 5) ∧
    (decode 0xDFFF = .ok (.read 15) ∧ (0xDFFF : Word).toNat / 8192 = 6) ∧
    (decode 0xE000 = .ok (.blt 0 0 0) ∧ (0xE000 : Word).toNat / 8192 = 7) := by decide

theorem witness_FieldLayoutsOfAllFormats :
    (0x1FFF : Word).extractLsb 15 13 = 0 ∧ (0x2000 : Word).extractLsb 15 13 = 1 ∧ (0x4000 : Word).extractLsb 15 13 = 2 ∧
    (0x7FFF : Word).extractLsb 15 13 = 3 ∧ (0x8000 : Word).extractLsb 15 13 = 4 ∧ (0xBFFF : Word).extractLsb 15 13 = 5 ∧
    (0xC000 : Word).extractLsb 15 13 = 6 ∧ (0xE000 : Word).extractLsb 15 13 = 7 := by decide

theorem witness_IgnoredBitsDoNotDecode :
    ((0x9FFE : Word).toNat / 8192 ≤ 4 ∧ (0x9FFE : Word).toNat / 2 = (0x9FFF : Word).toNat / 2) ∧
    ((0xA400 : Word).toNat / 8192 = 5 ∧ (0xA400 : Word).toNat / 512 = (0xA5FF : Word).toNat / 512) ∧
    ((0xC000 : Word).toNat / 8192 = 6 ∧ (0xC000 : Word).toNat / 512 = (0xC1FF : Word).toNat / 512) := by decide

theorem witness_ExtractorReadsMsbNumberedBits : ((0 ≤ 15 ∧ 15 ≤ 15) ∧ 0 ≤ 15 ∧ 15 ≤ 15) ∧ (15 ≤ 15 ∧ 15 ≤ 15) := by decide

theorem witness_EncoderWritesTheTabledWord :
    decode (BitVec.ofNat 16 ((0xFF : Byte).toNat * 256 + (0xFE : Byte).toNat)) = .ok (.blt 15 15 30) := by decide

/-- The last slot of a full memory: `pc` = 30 is the largest address a fetch is made at. -/
theorem witness_FetchReadsBigEndianWordAtPc :
    (atLast 0xA4 0x00).pc.toNat % 2 = 0 ∧ (atLast 0xA4 0x00).pc.toNat < 2 * (atLast 0xA4 0x00).icount.toNat ∧
    (atLast 0xA4 0x00).mem.read 30 = some 0xA4 ∧ (atLast 0xA4 0x00).mem.read 31 = some 0x00 := by decide

theorem witness_StepRunsTheFetchedInstruction :
    (atLast 0xA4 0x00).icount.toNat ≤ 16 ∧ (atLast 0xA4 0x00).status = .fetching ∧ (atLast 0xA4 0x00).pc.toNat = 30 ∧
    (atLast 0xA4 0x00).mem.read 30 = some 0xA4 ∧ (atLast 0xA4 0x00).mem.read 31 = some 0x00 ∧
    decode (wordOfBytes 0xA4 0x00) = .ok (.print 2) := by decide

theorem witness_StepResumesTheHeldInstruction :
    waiting.icount.toNat ≤ 16 ∧ waiting.status = .executing ∧ decode waiting.ir = .ok (.read 3) := by decide

theorem witness_TerminalStatesHaveNoStep :
    (State.reset.icount.toNat ≤ 16 ∧ State.reset.status = .halted) ∧
    ((waiting.raiseFault .inputExhausted).icount.toNat ≤ 16 ∧ (waiting.raiseFault .inputExhausted).status = .faulted) := by
  decide

theorem witness_NoStepLeavesHaltedOrFaulted :
    State.reset.status = .halted ∧ (waiting.raiseFault .inputExhausted).status = .faulted := by decide

theorem witness_IllegalCountIsRefused :
    17 ≤ ({ State.reset with icount := 17 } : State).icount.toNat ∧ 17 ≤ (31 : BitVec 5).toNat ∧ (16 : BitVec 5).toNat ≤ 16 := by
  decide

theorem witness_ReadStoresInputModulo256 :
    (prog [0xC0, 0x00] [.value (-129)]).input[(prog [0xC0, 0x00] [.value (-129)]).incur]? = some (.value (-129)) := by decide

theorem witness_ReadFaultsWhenInputExhausted :
    (prog [0xC0, 0x00] [.malformed]).input[(prog [0xC0, 0x00] [.malformed]).incur]? = some .malformed ∧
    ((prog [0xC0, 0x00] []).input[(prog [0xC0, 0x00] []).incur]? = none ∧ (prog [0xC0, 0x00] []).inputEnd = .exhausted) := by
  decide

theorem witness_ReadWaitsWhileUnanswered :
    waiting.input[waiting.incur]? = none ∧ waiting.inputEnd = .unanswered := by decide

theorem witness_WaitIsLiftedByTheSourceOnly :
    waiting.icount.toNat ≤ 16 ∧ waiting.status = .executing ∧ decode waiting.ir = .ok (.read 3) ∧
    waiting.incur = waiting.input.length ∧ waiting.inputEnd = .unanswered := by decide

theorem witness_BltTakenLandsOnTarget :
    (30 : Target).toNat % 2 = 0 ∧ (selfBranch.readReg 0).toNat < (selfBranch.readReg 2).toNat := by decide

theorem witness_BltNotTakenFallsThrough :
    (0 : Target).toNat % 2 = 0 ∧ (selfBranch.readReg 5).toNat ≤ (selfBranch.readReg 5).toNat := by decide

theorem witness_BltOddTargetAlwaysFaults : (31 : Target).toNat % 2 = 1 ∧ (1 : Target).toNat % 2 = 1 := by decide

/-- Both outcomes of the halt test: from address 30 of 16 instructions, and from address 0. -/
theorem witness_HaltTestDecidesTheNextStatus :
    (∃ t, exec (.print 2) (atLast 0xA4 0x00) = .next t ∧ t.status = .halted) ∧
    (∃ t, exec (.print 0) selfBranch = .next t ∧ t.status = .fetching) := ⟨⟨_, rfl, by decide⟩, ⟨_, rfl, by decide⟩⟩

/-- One step of each variant, from `Fetching`, and one of a waiting READ, from `Executing`. -/
theorem witness_IterationTouchesOnlyItsOwn :
    (∀ b ∈ ([0x00, 0x20, 0x40, 0x60, 0x80, 0xA0, 0xC0, 0xE0] : List Byte),
      (oneWord b 0x00 []).status = .fetching ∧ (nextOf (step (oneWord b 0x00 []))).isSome = true) ∧
    (waiting.status = .executing ∧ nextOf (step waiting) = some waiting) := by decide

theorem witness_FaultsArePrecise :
    after (step (oneWord 0xE0 0x01 [])) (fun t => t.status == .faulted) = true := by decide

theorem witness_OnlyOddBltAndExhaustedReadFault :
    after (step (oneWord 0xE0 0x01 [])) (fun t => t.status == .faulted && t.fkind == some .misalignedBranch) = true ∧
    after (step (oneWord 0xC0 0x00 [])) (fun t => t.status == .faulted && t.fkind == some .inputExhausted) = true ∧
    after (step (waiting.deliver .malformed)) (fun t => t.status == .faulted && t.fkind == some .inputExhausted) = true := by
  decide

/-- No run reaches a state with this `fkind`; the statement speaks of it all the same. -/
theorem witness_InvalidOpcodeIsNeverRaised :
    after (step { oneWord 0xA0 0x00 [] with fkind := some .invalidOpcode }) (fun t => t.fkind == some .invalidOpcode) = true := by
  decide

theorem witness_SinkOnlyGrowsCursorOnlyAdvances :
    after (step (oneWord 0xA0 0x00 [])) (fun t => t.out == [0]) = true ∧
    after (step (oneWord 0xC0 0x00 [.value 7])) (fun t => t.incur == 1) = true := by decide

theorem witness_ExecutionDoesNotReadIr : ∃ t, exec (.blt 0 2 4) selfBranch = .next t := ⟨_, rfl⟩

/-- Two memories that differ only at and above the halt bound 2: outcomes of all three kinds exist. -/
theorem witness_BytesPastTheProgramAreNeverRead :
    (∀ a, a < 2 * (prog [0xA0, 0x00] []).icount.toNat →
      Memory.read [(0, 0xA0), (1, 0x00), (2, 0xFF)] a = (prog [0xA0, 0x00] []).mem.read a) ∧
    (nextOf (step (prog [0xA0, 0x00] []))).isSome = true ∧
    (∃ r, step State.reset = .fault r) ∧ (∃ r, step { State.reset with icount := 17 } = .refused r) :=
  ⟨by decide, by decide, ⟨_, rfl⟩, ⟨_, rfl⟩⟩

theorem witness_TakenSelfBranchNeverEnds :
    selfBranch.icount.toNat ≤ 16 ∧ selfBranch.status = .fetching ∧ selfBranch.pc.toNat % 2 = 0 ∧
    selfBranch.pc.toNat < 2 * selfBranch.icount.toNat ∧ selfBranch.mem.readWord selfBranch.pc.toNat = some 0xE040 ∧
    decode 0xE040 = .ok (.blt 0 2 0) ∧ (0 : Target).toNat = selfBranch.pc.toNat ∧
    (selfBranch.readReg 0).toNat < (selfBranch.readReg 2).toNat := by decide

theorem witness_ResetLeavesTheStatedValues : 1 ≤ (1 : BitVec 5).toNat ∧ (0 : BitVec 5).toNat = 0 := by decide

theorem witness_ExecutionEntersAtAddressZero :
    1 ≤ (1 : BitVec 5).toNat ∧ Memory.readWord (Memory.ofBytes [0x00, 0x14] 0) 0 = some 0x0014 := by decide

theorem witness_ResetEventRestoresTheCore : 1 ≤ waiting.icount.toNat ∧ State.reset.icount.toNat = 0 := by decide

theorem witness_LoadedImageStartsInInvariant :
    (List.replicate 32 (0 : Byte)).length % 2 = 0 ∧ (List.replicate 32 (0 : Byte)).length ≤ 32 ∧
    ([] : List Byte).length % 2 = 0 := by decide

theorem witness_LoaderErrorsByLength :
    ((List.replicate 31 (0 : Byte)).length % 2 = 1 ∧ (List.replicate 31 (0 : Byte)).length ≤ 32) ∧
    ((List.replicate 34 (0 : Byte)).length % 2 = 0 ∧ 32 < (List.replicate 34 (0 : Byte)).length) ∧
    ((List.replicate 33 (0 : Byte)).length % 2 = 1 ∧ 32 < (List.replicate 33 (0 : Byte)).length) := by decide

/-- The last slot of a full memory meets the invariant. -/
theorem inv_atLast : Inv (atLast 0xA4 0x00) where
  countLegal := by decide
  pcEven := by decide
  pcBound := by decide
  fetchingBelow := by decide
  executingBelow := by decide
  haltedAbove := by decide
  faultedExactly := by decide
  waitingRead := fun h => by cases h
  irAtPc := fun h => by cases h with | inl h => cases h | inr h => cases h
  cursor := by decide
  memWf := by decide
  loaded := by decide

/-- A waiting READ meets the invariant. -/
theorem inv_waiting : Inv waiting where
  countLegal := by decide
  pcEven := by decide
  pcBound := by decide
  fetchingBelow := by decide
  executingBelow := by decide
  haltedAbove := by decide
  faultedExactly := by decide
  waitingRead := fun _ => ⟨3, by decide⟩
  irAtPc := by decide
  cursor := by decide
  memWf := by decide
  loaded := by decide

theorem witness_StepKeepsInvariant : Inv (atLast 0xA4 0x00) ∧ ∃ t, step (atLast 0xA4 0x00) = .next t :=
  ⟨inv_atLast, _, rfl⟩

theorem witness_EnvironmentMovesKeepInvariant : Inv waiting ∧ waiting.inputEnd = .unanswered := ⟨inv_waiting, rfl⟩

theorem witness_EnabledEngineAlwaysSteps :
    (Inv (atLast 0xA4 0x00) ∧ (atLast 0xA4 0x00).status = .fetching) ∧ (Inv waiting ∧ waiting.status = .executing) :=
  ⟨⟨inv_atLast, by decide⟩, ⟨inv_waiting, by decide⟩⟩

theorem witness_DisassemblyListsEveryInstruction :
    ∀ a : Nat, a < 2 * (prog [0x00, 0x14, 0x20, 0x24] []).icount.toNat →
      ((prog [0x00, 0x14, 0x20, 0x24] []).mem.read a).isSome = true := by decide

end Sys2Proof.Tests
end

section
/-! SUPPORT. The machine's state and its boundary: the count a launch accepts, the independence of the execute phase from
`ir`, and the invariant at entry and under the environment's moves. -/

namespace Sys2Proof.Machine

/-! ### The halt test as a decision -/

@[simp] theorem haltTest_eq_halted_iff (bound : Nat) (p : Word) : haltTest bound p = .halted ↔ bound ≤ p.toNat := by
  rcases haltTest_cases bound p with ⟨hb, ht⟩ | ⟨hb, ht⟩ <;> simp [ht, hb]

@[simp] theorem haltTest_eq_fetching_iff (bound : Nat) (p : Word) : haltTest bound p = .fetching ↔ p.toNat < bound := by
  rcases haltTest_cases bound p with ⟨hb, ht⟩ | ⟨hb, ht⟩ <;> simp [ht, hb]

@[simp] theorem haltTest_ne_executing (bound : Nat) (p : Word) : haltTest bound p ≠ .executing := by
  rcases haltTest_cases bound p with ⟨_, ht⟩ | ⟨_, ht⟩ <;> simp [ht]

@[simp] theorem haltTest_ne_faulted (bound : Nat) (p : Word) : haltTest bound p ≠ .faulted := by
  rcases haltTest_cases bound p with ⟨_, ht⟩ | ⟨_, ht⟩ <;> simp [ht]

/-! ### READ and BLT, one equation per case -/

section
variable {s : State}

theorem execRead_of_value (r : RegIdx) {n : Int} (h : s.askInput = .value n) :
    execRead r s = .next ((s.consumeInput.writeReg r (truncateToByte n)).retire s.seqPc) := by
  simp only [execRead, h]

theorem execRead_of_exhausted (r : RegIdx) (h : s.askInput = .exhausted) :
    execRead r s = .next (s.raiseFault .inputExhausted) := by
  simp only [execRead, h]

theorem execRead_of_unanswered (r : RegIdx) (h : s.askInput = .unanswered) : execRead r s = .next s.waitForInput := by
  simp only [execRead, h]

theorem execBlt_of_odd (ra rb : RegIdx) {g : Target} (h : targetIsOdd g = true) :
    execBlt ra rb g s = .next (s.raiseFault .misalignedBranch) := if_pos h

theorem execBlt_of_less {ra rb : RegIdx} {g : Target} (ho : targetIsOdd g ≠ true)
    (hl : lessUnsigned (s.readReg ra) (s.readReg rb) = true) :
    execBlt ra rb g s = .next (s.retire (targetAddress g)) := by
  rw [execBlt, if_neg ho, if_pos hl]

theorem execBlt_of_not_less {ra rb : RegIdx} {g : Target} (ho : targetIsOdd g ≠ true)
    (hl : lessUnsigned (s.readReg ra) (s.readReg rb) ≠ true) :
    execBlt ra rb g s = .next (s.retire s.seqPc) := by
  rw [execBlt, if_neg ho, if_neg hl]

end

/-! ### The execute phase and `ir` (R15) -/

/-- The source is asked by cursor and listed items alone. -/
theorem askInput_setIr (s : State) (v : Word) : ({ s with ir := v } : State).askInput = s.askInput := rfl

/-- READ asks the same source, gets the same answer, and so ends the same way. -/
theorem execRead_setIr {r : RegIdx} {s t : State} (v : Word) (h : execRead r s = .next t) :
    execRead r { s with ir := v } = .next { t with ir := v } := by
  have hask := askInput_setIr s v
  cases ha : s.askInput with
  | value n =>
    cases (execRead_of_value r ha).symm.trans h
    exact execRead_of_value r (hask.trans ha)
  | exhausted =>
    cases (execRead_of_exhausted r ha).symm.trans h
    exact execRead_of_exhausted r (hask.trans ha)
  | unanswered =>
    cases (execRead_of_unanswered r ha).symm.trans h
    exact execRead_of_unanswered r (hask.trans ha)

/-- BLT decides by its target and two registers, and so ends the same way. -/
theorem execBlt_setIr {ra rb : RegIdx} {g : Target} {s t : State} (v : Word) (h : execBlt ra rb g s = .next t) :
    execBlt ra rb g { s with ir := v } = .next { t with ir := v } := by
  by_cases ho : targetIsOdd g = true
  · cases (execBlt_of_odd ra rb ho).symm.trans h
    exact execBlt_of_odd ra rb ho
  by_cases hl : lessUnsigned (s.readReg ra) (s.readReg rb) = true
  · cases (execBlt_of_less ho hl).symm.trans h
    exact execBlt_of_less (s := { s with ir := v }) ho hl
  · cases (execBlt_of_not_less ho hl).symm.trans h
    exact execBlt_of_not_less (s := { s with ir := v }) ho hl

/-- The four ALU instructions at once: sources and destination are registers. -/
theorem execAlu_setIr {op : Byte → Byte → Byte} {rd rs1 rs2 : RegIdx} {s t : State} (v : Word)
    (h : execAlu op rd rs1 rs2 s = .next t) : execAlu op rd rs1 rs2 { s with ir := v } = .next { t with ir := v } := by
  cases h
  rfl

theorem exec_setIr (i : Instr) (s t : State) (v : Word) (h : exec i s = .next t) :
    exec i { s with ir := v } = .next { t with ir := v } := by
  cases i with
  | loadi rd imm8 => cases h; rfl
  | add rd rs1 rs2 => exact execAlu_setIr v h
  | and rd rs1 rs2 => exact execAlu_setIr v h
  | or rd rs1 rs2 => exact execAlu_setIr v h
  | xor rd rs1 rs2 => exact execAlu_setIr v h
  | print r => cases h; rfl
  | read r => exact execRead_setIr v h
  | blt ra rb g => exact execBlt_setIr v h

/-! ### The invariant at entry and under the environment's moves -/

/-- A state as reset leaves it, `pc` 0, no fault and the halt test just made, meets the invariant when its launch
parameters do. -/
theorem inv_of_entry {s : State} (hpc : s.pc = 0) (hfk : s.fkind = none) (hst : s.status = haltTest s.haltBound 0)
    (hcount : s.icount.toNat ≤ 16) (hcur : s.incur ≤ s.input.length) (hmem : s.mem.wf = true)
    (hload : ∀ a : Nat, a < 2 * s.icount.toNat → (s.mem.read a).isSome = true) : Inv s where
  countLegal := hcount
  pcEven := by simp [hpc]
  pcBound := by simp [hpc]
  fetchingBelow := by simp [hst, hpc]
  executingBelow := by simp [hst]
  haltedAbove := by simp [hst, hpc]
  faultedExactly := by simp [hst, hfk]
  waitingRead := by simp [hst]
  irAtPc := by simp [hst]
  cursor := hcur
  memWf := hmem
  loaded := hload

theorem inv_start {m : Memory} {n : BitVec 5} (input : List InputItem) (e : InputEnd) (hcount : n.toNat ≤ 16)
    (hmem : m.wf = true) (hload : ∀ a : Nat, a < 2 * n.toNat → (m.read a).isSome = true) :
    Inv (State.start m n input e) :=
  inv_of_entry rfl rfl rfl hcount (Nat.zero_le _) hmem hload

theorem reset_eq_start : State.reset = State.start [] 0 [] .exhausted := rfl

theorem inv_reset : Inv State.reset := by
  rw [reset_eq_start]
  exact inv_start [] .exhausted (by decide) rfl (by simp)

/-- The invariant asks of the input source only that the cursor stays within the listed items. -/
theorem inv_setSource {s : State} (hi : Inv s) {input : List InputItem} (e : InputEnd) (hcur : s.incur ≤ input.length) :
    Inv { s with input := input, inputEnd := e } :=
  { hi with cursor := hcur }

theorem inv_deliver {s : State} (hi : Inv s) (item : InputItem) : Inv (s.deliver item) := by
  rcases deliver_cases s item with ⟨_, hd⟩ | ⟨_, hd⟩
  · rw [hd]
    exact inv_setSource hi s.inputEnd (by simpa using Nat.le_succ_of_le hi.cursor)
  · rwa [hd]

theorem inv_closeInput {s : State} (hi : Inv s) : Inv s.closeInput := inv_setSource hi .exhausted hi.cursor

theorem inv_resetEvent {s : State} (hi : Inv s) : Inv s.resetEvent :=
  inv_of_entry rfl rfl rfl hi.countLegal hi.cursor hi.memWf hi.loaded

/-! ### Illegal counts (R21) -/

theorem step_of_illegal_count {s : State} (h : Config.maxInstr < s.icount.toNat) :
    step s = .refused .illegalInstructionCount := if_pos h

theorem launch_of_illegal_count (m : Memory) {n : BitVec 5} (input : List InputItem) (e : InputEnd)
    (h : Config.maxInstr < n.toNat) : launch m n input e = .error .illegalInstructionCount := if_pos h

theorem launch_of_legal_count (m : Memory) {n : BitVec 5} (input : List InputItem) (e : InputEnd)
    (h : n.toNat ≤ Config.maxInstr) : launch m n input e = .ok (State.start m n input e) := if_neg (Nat.not_lt.mpr h)

/-! ### The obligations -/

/-- Settles O34: no execute phase reads or writes `ir`, by cases on the instruction. -/
theorem executionDoesNotReadIr : Obligations.ExecutionDoesNotReadIr := exec_setIr

/-- Settles O47: delivery and close change the source only; the reset event enters at address 0 again. -/
theorem environmentMovesKeepInvariant : Obligations.EnvironmentMovesKeepInvariant :=
  fun _ hi => ⟨inv_deliver hi, inv_closeInput hi, inv_resetEvent hi⟩

/-- Settles O14: step and launch make the same test of the count. -/
theorem illegalCountIsRefused : Obligations.IllegalCountIsRefused :=
  ⟨fun _ => step_of_illegal_count, fun m _ input e => launch_of_illegal_count m input e,
    fun m _ input e => launch_of_legal_count m input e⟩

/-- Settles O38: reset is the start of the empty program, which needs no loaded byte. -/
theorem resetStateMeetsInvariant : Obligations.ResetStateMeetsInvariant := ⟨reset_eq_start, inv_reset⟩

end Sys2Proof.Machine
end

section
/-! SUPPORT. Memory and the fetch: the step by run state, progress of the execute phase, and the independence of the step
from the bytes at and above the halt bound. -/

namespace Sys2Proof.Machine

/-! ### The step, one equation per run state (R70, R77, R78) -/

section
variable {s : State}

section
variable (hc : s.icount.toNat ≤ Config.maxInstr)
include hc

theorem step_of_fetch_ok {u : State} (hs : s.status = .fetching) (hf : s.fetch = .ok u) :
    step s = execIr u := by
  rw [step, iterate, if_neg (Nat.not_lt.mpr hc)]
  simp only [hs, hf]

theorem step_of_fetch_error {r : Fault} (hs : s.status = .fetching)
    (hf : s.fetch = .error r) : step s = .fault r := by
  rw [step, iterate, if_neg (Nat.not_lt.mpr hc)]
  simp only [hs, hf]

theorem step_of_executing (hs : s.status = .executing) : step s = execIr s := by
  rw [step, iterate, if_neg (Nat.not_lt.mpr hc)]
  simp only [hs]

theorem step_of_halted (hs : s.status = .halted) : step s = .fault .engineHalted := by
  rw [step, iterate, if_neg (Nat.not_lt.mpr hc)]
  simp only [hs]

theorem step_of_faulted (hs : s.status = .faulted) : step s = .fault .engineFaulted := by
  rw [step, iterate, if_neg (Nat.not_lt.mpr hc)]
  simp only [hs]

end

theorem execIr_of_ok {i : Instr} (hd : decode s.ir = .ok i) : execIr s = exec i s := by
  simp only [execIr, hd]

theorem execIr_of_error {e : DecodeError} (hd : decode s.ir = .error e) :
    execIr s = .next (s.raiseFault .invalidOpcode) := by
  simp only [execIr, hd]

end

/-! ### The fetch, one equation per case (R36, R39, R71) -/

section
variable {s : State}

theorem fetch_of_odd (hodd : s.pc.toNat % 2 = 1) : s.fetch = .error .misalignedFetch := if_pos hodd

theorem fetch_of_beyond (heven : s.pc.toNat % 2 ≠ 1) (hb : 2 * s.icount.toNat ≤ s.pc.toNat) :
    s.fetch = .error .fetchBeyondImage := by
  rw [State.fetch, if_neg heven, if_pos (haltBound_eq s ▸ hb)]

theorem fetch_of_no_word (heven : s.pc.toNat % 2 = 0) (hb : s.pc.toNat < 2 * s.icount.toNat)
    (hw : s.mem.readWord s.pc.toNat = none) : s.fetch = .error .byteWithoutValue := by
  rw [State.fetch, if_neg (by omega), if_neg (haltBound_eq s ▸ Nat.not_le.mpr hb)]
  simp only [hw]

theorem fetch_of_readWord {w : Word} (heven : s.pc.toNat % 2 = 0) (hb : s.pc.toNat < 2 * s.icount.toNat)
    (hw : s.mem.readWord s.pc.toNat = some w) : s.fetch = .ok { s with ir := w, status := .executing } :=
  (fetch_ok_iff s _).2 ⟨heven, hb, w, hw, rfl⟩

end

/-- An even address below the halt bound has its successor below it too, so both bytes of the word are loaded. -/
theorem readWord_of_loaded {m : Memory} {n a : Nat} (hload : ∀ b : Nat, b < 2 * n → (m.read b).isSome = true)
    (heven : a % 2 = 0) (ha : a < 2 * n) : ∃ w, m.readWord a = some w := by
  obtain ⟨hi, hhi⟩ := Option.isSome_iff_exists.1 (hload a ha)
  obtain ⟨lo, hlo⟩ := Option.isSome_iff_exists.1 (hload (a + 1) (by omega))
  exact ⟨wordOfBytes hi lo, (m.readWord_eq_some a _).2 ⟨hi, lo, hhi, hlo, rfl⟩⟩

/-! ### The execute phase always answers a next state -/

theorem execRead_answers_next (r : RegIdx) (s : State) : ∃ t, execRead r s = .next t := by
  cases ha : s.askInput with
  | value n => exact ⟨_, execRead_of_value r ha⟩
  | exhausted => exact ⟨_, execRead_of_exhausted r ha⟩
  | unanswered => exact ⟨_, execRead_of_unanswered r ha⟩

theorem execBlt_answers_next (ra rb : RegIdx) (g : Target) (s : State) : ∃ t, execBlt ra rb g s = .next t := by
  by_cases ho : targetIsOdd g = true
  · exact ⟨_, execBlt_of_odd ra rb ho⟩
  by_cases hl : lessUnsigned (s.readReg ra) (s.readReg rb) = true
  · exact ⟨_, execBlt_of_less ho hl⟩
  · exact ⟨_, execBlt_of_not_less ho hl⟩

theorem exec_answers_next (i : Instr) (s : State) : ∃ t, exec i s = .next t := by
  cases i with
  | loadi rd imm8 => exact ⟨_, rfl⟩
  | add rd rs1 rs2 => exact ⟨_, rfl⟩
  | and rd rs1 rs2 => exact ⟨_, rfl⟩
  | or rd rs1 rs2 => exact ⟨_, rfl⟩
  | xor rd rs1 rs2 => exact ⟨_, rfl⟩
  | print r => exact ⟨_, rfl⟩
  | read r => exact execRead_answers_next r s
  | blt ra rb g => exact execBlt_answers_next ra rb g s

/-- No refusal and no stop after the fetch: even a table miss would be a next state (R72). -/
theorem execIr_answers_next (s : State) : ∃ t, execIr s = .next t := by
  cases hd : decode s.ir with
  | ok i => exact execIr_of_ok hd ▸ exec_answers_next i s
  | error e => exact ⟨_, execIr_of_error hd⟩

/-! ### Another memory in place of the state's own (R33, D11) -/

/-- The state with `m` in place of its memory. -/
def State.setMem (s : State) (m : Memory) : State := { s with mem := m }

/-- An outcome with `m` in place of the next state's memory; a stop and a refusal hold no memory. -/
def outcomeSetMem (m : Memory) : Host.Outcome State Fault Refusal → Host.Outcome State Fault Refusal
  | .next t => .next (t.setMem m)
  | .fault r => .fault r
  | .refused r => .refused r

theorem execRead_setMem (r : RegIdx) (s : State) (m : Memory) :
    execRead r (s.setMem m) = outcomeSetMem m (execRead r s) := by
  have hask : (s.setMem m).askInput = s.askInput := rfl
  cases ha : s.askInput with
  | value n => rw [execRead_of_value r ha, execRead_of_value r (hask.trans ha)]; rfl
  | exhausted => rw [execRead_of_exhausted r ha, execRead_of_exhausted r (hask.trans ha)]; rfl
  | unanswered => rw [execRead_of_unanswered r ha, execRead_of_unanswered r (hask.trans ha)]; rfl

theorem execBlt_setMem (ra rb : RegIdx) (g : Target) (s : State) (m : Memory) :
    execBlt ra rb g (s.setMem m) = outcomeSetMem m (execBlt ra rb g s) := by
  by_cases ho : targetIsOdd g = true
  · rw [execBlt_of_odd ra rb ho, execBlt_of_odd ra rb ho]; rfl
  by_cases hl : lessUnsigned (s.readReg ra) (s.readReg rb) = true
  · rw [execBlt_of_less ho hl, execBlt_of_less (s := s.setMem m) ho hl]; rfl
  · rw [execBlt_of_not_less ho hl, execBlt_of_not_less (s := s.setMem m) ho hl]; rfl

/-- The execute phase neither reads nor writes memory (R37). -/
theorem exec_setMem (i : Instr) (s : State) (m : Memory) : exec i (s.setMem m) = outcomeSetMem m (exec i s) := by
  cases i with
  | loadi rd imm8 => rfl
  | add rd rs1 rs2 => rfl
  | and rd rs1 rs2 => rfl
  | or rd rs1 rs2 => rfl
  | xor rd rs1 rs2 => rfl
  | print r => rfl
  | read r => exact execRead_setMem r s m
  | blt ra rb g => exact execBlt_setMem ra rb g s m

theorem execIr_setMem (s : State) (m : Memory) : execIr (s.setMem m) = outcomeSetMem m (execIr s) := by
  cases hd : decode s.ir with
  | ok i => rw [execIr_of_ok hd, execIr_of_ok (s := s.setMem m) hd, exec_setMem]
  | error e => rw [execIr_of_error hd, execIr_of_error (s := s.setMem m) hd]; rfl

theorem Memory.readWord_congr {m₁ m₂ : Memory} {a : Nat} (h₀ : m₁.read a = m₂.read a)
    (h₁ : m₁.read (a + 1) = m₂.read (a + 1)) : m₁.readWord a = m₂.readWord a := by
  rw [Memory.readWord, Memory.readWord, h₀, h₁]

section
variable {s : State} {m : Memory} (hagree : ∀ a : Nat, a < 2 * s.icount.toNat → m.read a = s.mem.read a)
include hagree

/-- The fetch reads only below the halt bound: where it reads at all, `pc` is even, so `pc + 1` is below the bound, an even
number, too. -/
theorem fetch_setMem : (s.setMem m).fetch = s.fetch.map (·.setMem m) := by
  by_cases hodd : s.pc.toNat % 2 = 1
  · rw [fetch_of_odd hodd, fetch_of_odd (s := s.setMem m) hodd]; rfl
  by_cases hb : 2 * s.icount.toNat ≤ s.pc.toNat
  · rw [fetch_of_beyond hodd hb, fetch_of_beyond (s := s.setMem m) hodd hb]; rfl
  have heven : s.pc.toNat % 2 = 0 := by omega
  have hlt : s.pc.toNat < 2 * s.icount.toNat := Nat.lt_of_not_le hb
  have hw : m.readWord s.pc.toNat = s.mem.readWord s.pc.toNat :=
    Memory.readWord_congr (hagree _ hlt) (hagree _ (by omega))
  cases hs : s.mem.readWord s.pc.toNat with
  | none =>
    rw [fetch_of_no_word heven hlt hs, fetch_of_no_word (s := s.setMem m) heven hlt (hw.trans hs)]; rfl
  | some w =>
    rw [fetch_of_readWord heven hlt hs, fetch_of_readWord (s := s.setMem m) heven hlt (hw.trans hs)]; rfl

theorem step_setMem : step (s.setMem m) = outcomeSetMem m (step s) := by
  by_cases hc : Config.maxInstr < s.icount.toNat
  · rw [step_of_illegal_count hc, step_of_illegal_count (s := s.setMem m) hc]; rfl
  have hc : s.icount.toNat ≤ Config.maxInstr := Nat.le_of_not_lt hc
  cases hs : s.status with
  | fetching =>
    have hfm := fetch_setMem hagree
    cases hf : s.fetch with
    | ok u =>
      rw [hf] at hfm
      rw [step_of_fetch_ok hc hs hf, step_of_fetch_ok (s := s.setMem m) hc hs hfm, execIr_setMem]
    | error r =>
      rw [hf] at hfm
      rw [step_of_fetch_error hc hs hf, step_of_fetch_error (s := s.setMem m) hc hs hfm]; rfl
  | executing => rw [step_of_executing hc hs, step_of_executing (s := s.setMem m) hc hs, execIr_setMem]
  | halted => rw [step_of_halted hc hs, step_of_halted (s := s.setMem m) hc hs]; rfl
  | faulted => rw [step_of_faulted hc hs, step_of_faulted (s := s.setMem m) hc hs]; rfl

end

/-! ### The obligations -/

/-- Settles O35: replacing the memory commutes with the step, whatever the outcome. -/
theorem bytesPastTheProgramAreNeverRead : Obligations.BytesPastTheProgramAreNeverRead := by
  intro s m hagree
  have hstep : step { s with mem := m } = outcomeSetMem m (step s) := step_setMem hagree
  refine ⟨fun t ht => ?_, fun r hr => ?_, fun r hr => ?_⟩
  · rw [hstep, ht]; rfl
  · rw [hstep, hr]; rfl
  · rw [hstep, hr]; rfl

/-- Settles O44: the invariant's `pc` is even and on loaded bytes, and the execute phase always answers a next state. -/
theorem enabledEngineAlwaysSteps : Obligations.EnabledEngineAlwaysSteps := by
  intro s hi hs
  rcases hs with hs | hs
  · have hbelow := hi.fetchingBelow hs
    obtain ⟨w, hw⟩ := readWord_of_loaded hi.loaded hi.pcEven hbelow
    rw [step_of_fetch_ok hi.countLegal hs (fetch_of_readWord hi.pcEven hbelow hw)]
    exact execIr_answers_next _
  · rw [step_of_executing hi.countLegal hs]
    exact execIr_answers_next s

/-- Settles O10: the two bytes make the word the fetch puts into `ir`. -/
theorem fetchReadsBigEndianWordAtPc : Obligations.FetchReadsBigEndianWordAtPc := by
  intro s hi lo heven hb hhi hlo
  have hw : s.mem.readWord s.pc.toNat = some (wordOfBytes hi lo) :=
    (s.mem.readWord_eq_some _ _).2 ⟨hi, lo, hhi, hlo, rfl⟩
  exact ⟨_, fetch_of_readWord heven hb hw, wordOfBytes_toNat hi lo, rfl⟩

end Sys2Proof.Machine
end

section
/-! SUPPORT. The encoding: the fields as quotients and as slices of the word, the decoder opcode by opcode, and the law that ties
the decoder to the encoder, `decode_eq_ok_iff`. -/

namespace Sys2Proof

variable (w : Word)

/-! ### The extractor and the fields (R46 to R55) -/

/-- The MSB-numbered field `w{a..b}` is the LSB-numbered slice `w[15-a:15-b]` (R48). -/
theorem extractBits_eq_extractLsb (a b : Nat) (h : a ≤ b ∧ b ≤ 15) :
    extractBits w a b h = (w.extractLsb (15 - a) (15 - b)).toNat := by
  have hlen : 15 - a - (15 - b) + 1 = b - a + 1 := by omega
  rw [BitVec.extractLsb_toNat, Nat.shiftRight_eq_div_pow, hlen, extractBits]

theorem testBit_extractBits {a b k : Nat} (h : a ≤ b ∧ b ≤ 15) (hak : a ≤ k) (hkb : k ≤ b) :
    (extractBits w a b h).testBit (b - k) = w.getMsbD k := by
  have hlt : b - k < b - a + 1 := by omega
  have hidx : b - k + (15 - b) = 16 - 1 - k := by omega
  have hk : k < 16 := by omega
  simp [extractBits, Nat.testBit_mod_two_pow, Nat.testBit_div_two_pow, BitVec.getMsbD, BitVec.testBit_toNat, hlt, hidx, hk]

/-- A field of one bit is that bit (R47). -/
theorem extractBits_single (a : Nat) (h : a ≤ a ∧ a ≤ 15) : extractBits w a a h = (w.getMsbD a).toNat := by
  rw [← testBit_extractBits w h (Nat.le_refl a) (Nat.le_refl a), Nat.toNat_testBit]
  simp [extractBits]

theorem extractBits_whole : extractBits w 0 15 = w.toNat := by
  simpa [extractBits] using Nat.mod_eq_of_lt w.isLt

@[simp] theorem regFieldA_val : (regFieldA w).val = w.toNat / 512 % 16 :=
  Nat.mod_eq_of_lt (extractBits_lt w 3 6 _)

@[simp] theorem regFieldB_val : (regFieldB w).val = w.toNat / 32 % 16 :=
  Nat.mod_eq_of_lt (extractBits_lt w 7 10 _)

@[simp] theorem regFieldC_val : (regFieldC w).val = w.toNat / 2 % 16 :=
  Nat.mod_eq_of_lt (extractBits_lt w 11 14 _)

@[simp] theorem immField_toNat : (immField w).toNat = w.toNat / 2 % 256 :=
  Nat.mod_eq_of_lt (extractBits_lt w 7 14 _)

@[simp] theorem targetField_toNat : (targetField w).toNat = w.toNat % 32 :=
  (Nat.mod_eq_of_lt (extractBits_lt w 11 15 _)).trans (by simp [extractBits])

/-- The opcode as the slice `w[15:13]` (R48). -/
theorem opcode_of_slice {k : BitVec 3} (h : w.extractLsb 15 13 = k) : w.toNat / 8192 = k.toNat := by
  rw [← h, ← extractBits_opcode, extractBits_eq_extractLsb]

theorem regFieldA_eq_slice : regFieldA w = (w.extractLsb 12 9).toFin :=
  Fin.ext ((Nat.mod_eq_of_lt (extractBits_lt w 3 6 _)).trans (extractBits_eq_extractLsb w 3 6 _))

theorem regFieldB_eq_slice : regFieldB w = (w.extractLsb 8 5).toFin :=
  Fin.ext ((Nat.mod_eq_of_lt (extractBits_lt w 7 10 _)).trans (extractBits_eq_extractLsb w 7 10 _))

theorem regFieldC_eq_slice : regFieldC w = (w.extractLsb 4 1).toFin :=
  Fin.ext ((Nat.mod_eq_of_lt (extractBits_lt w 11 14 _)).trans (extractBits_eq_extractLsb w 11 14 _))

theorem immField_eq_slice : immField w = w.extractLsb 8 1 :=
  BitVec.eq_of_toNat_eq ((Nat.mod_eq_of_lt (extractBits_lt w 7 14 _)).trans (extractBits_eq_extractLsb w 7 14 _))

theorem targetField_eq_slice : targetField w = w.extractLsb 4 0 :=
  BitVec.eq_of_toNat_eq ((Nat.mod_eq_of_lt (extractBits_lt w 11 15 _)).trans (extractBits_eq_extractLsb w 11 15 _))

/-! ### The decoder, one equation per opcode (R49, R62) -/

section
variable {w}

theorem decode_loadi (h : w.toNat / 8192 = 0) : decode w = .ok (.loadi (regFieldA w) (immField w)) := by
  simp only [decode, extractBits_opcode, h]

theorem decode_add (h : w.toNat / 8192 = 1) : decode w = .ok (.add (regFieldC w) (regFieldA w) (regFieldB w)) := by
  simp only [decode, extractBits_opcode, h]

theorem decode_and (h : w.toNat / 8192 = 2) : decode w = .ok (.and (regFieldC w) (regFieldA w) (regFieldB w)) := by
  simp only [decode, extractBits_opcode, h]

theorem decode_or (h : w.toNat / 8192 = 3) : decode w = .ok (.or (regFieldC w) (regFieldA w) (regFieldB w)) := by
  simp only [decode, extractBits_opcode, h]

theorem decode_xor (h : w.toNat / 8192 = 4) : decode w = .ok (.xor (regFieldC w) (regFieldA w) (regFieldB w)) := by
  simp only [decode, extractBits_opcode, h]

theorem decode_print (h : w.toNat / 8192 = 5) : decode w = .ok (.print (regFieldA w)) := by
  simp only [decode, extractBits_opcode, h]

theorem decode_read (h : w.toNat / 8192 = 6) : decode w = .ok (.read (regFieldA w)) := by
  simp only [decode, extractBits_opcode, h]

theorem decode_blt (h : w.toNat / 8192 = 7) : decode w = .ok (.blt (regFieldA w) (regFieldB w) (targetField w)) := by
  simp only [decode, extractBits_opcode, h]

end

/-- Everything the decoder can answer: three bits name eight opcodes, and each has a mnemonic (R49, R57). -/
theorem decode_cases :
    (w.toNat / 8192 = 0 ∧ decode w = .ok (.loadi (regFieldA w) (immField w))) ∨
    (w.toNat / 8192 = 1 ∧ decode w = .ok (.add (regFieldC w) (regFieldA w) (regFieldB w))) ∨
    (w.toNat / 8192 = 2 ∧ decode w = .ok (.and (regFieldC w) (regFieldA w) (regFieldB w))) ∨
    (w.toNat / 8192 = 3 ∧ decode w = .ok (.or (regFieldC w) (regFieldA w) (regFieldB w))) ∨
    (w.toNat / 8192 = 4 ∧ decode w = .ok (.xor (regFieldC w) (regFieldA w) (regFieldB w))) ∨
    (w.toNat / 8192 = 5 ∧ decode w = .ok (.print (regFieldA w))) ∨
    (w.toNat / 8192 = 6 ∧ decode w = .ok (.read (regFieldA w))) ∨
    (w.toNat / 8192 = 7 ∧ decode w = .ok (.blt (regFieldA w) (regFieldB w) (targetField w))) := by
  have hlt : w.toNat / 8192 < 8 := by omega
  generalize hop : w.toNat / 8192 = op at hlt
  match op with
  | 0 => simp [decode_loadi hop]
  | 1 => simp [decode_add hop]
  | 2 => simp [decode_and hop]
  | 3 => simp [decode_or hop]
  | 4 => simp [decode_xor hop]
  | 5 => simp [decode_print hop]
  | 6 => simp [decode_read hop]
  | 7 => simp [decode_blt hop]

theorem exists_decode : ∃ i, decode w = .ok i ∧ i.opcode = w.toNat / 8192 := by
  rcases decode_cases w with ⟨hop, hd⟩ | ⟨hop, hd⟩ | ⟨hop, hd⟩ | ⟨hop, hd⟩ | ⟨hop, hd⟩ | ⟨hop, hd⟩ | ⟨hop, hd⟩ |
    ⟨hop, hd⟩ <;> exact ⟨_, hd, hop.symm⟩

/-! ### The ignored bits (R58, R59) -/

section
variable {w}

theorem ignoredBits_of_opcode_le_four (h : w.toNat / 8192 ≤ 4) : ignoredBits w = w.toNat % 2 := by
  have hlow : extractBits w 15 15 = w.toNat % 2 := by simp [extractBits]
  rw [ignoredBits, extractBits_opcode, hlow]
  split <;> omega

theorem ignoredBits_of_opcode_five_or_six (h : w.toNat / 8192 = 5 ∨ w.toNat / 8192 = 6) :
    ignoredBits w = w.toNat % 512 := by
  have hlow : extractBits w 7 15 = w.toNat % 512 := by simp [extractBits]
  rcases h with h | h <;> simp only [ignoredBits, extractBits_opcode, h, hlow]

theorem ignoredBits_of_opcode_seven (h : w.toNat / 8192 = 7) : ignoredBits w = 0 := by
  simp only [ignoredBits, extractBits_opcode, h]

end

/-- In every format the ignored bits are among the low nine. -/
theorem ignoredBits_le : ignoredBits w ≤ w.toNat % 512 := by
  have hcases : w.toNat / 8192 ≤ 4 ∨ (w.toNat / 8192 = 5 ∨ w.toNat / 8192 = 6) ∨ w.toNat / 8192 = 7 := by omega
  rcases hcases with h | h | h
  · rw [ignoredBits_of_opcode_le_four h]
    omega
  · rw [ignoredBits_of_opcode_five_or_six h]
  · rw [ignoredBits_of_opcode_seven h]
    exact Nat.zero_le _

theorem ignoredBits_encode (i : Instr) : ignoredBits (encode i) = 0 := by
  cases i with
  | loadi rd imm8 => exact (Laws.EncodingShape.loadi rd imm8).2
  | add rd rs1 rs2 => exact (Laws.EncodingShape.add rd rs1 rs2).2
  | and rd rs1 rs2 => exact (Laws.EncodingShape.and rd rs1 rs2).2
  | or rd rs1 rs2 => exact (Laws.EncodingShape.or rd rs1 rs2).2
  | xor rd rs1 rs2 => exact (Laws.EncodingShape.xor rd rs1 rs2).2
  | print r => exact (Laws.EncodingShape.print r).2
  | read r => exact (Laws.EncodingShape.read r).2
  | blt ra rb g => exact (Laws.EncodingShape.blt ra rb g).2

/-! ### Decoder against encoder, format by format -/

/-- A word is a format's word plus its own ignored bits exactly when its opcode and its fields are the operands'. -/
theorem eq_encodeI_add_ignoredBits_iff {op : Nat} (hop : op < 5) (rd : RegIdx) (imm8 : Byte) :
    w.toNat = (encodeI op rd imm8).toNat + ignoredBits w ↔
      w.toNat / 8192 = op ∧ regFieldA w = rd ∧ immField w = imm8 := by
  have hle := ignoredBits_le w
  have hig : w.toNat / 8192 = op → ignoredBits w = w.toNat % 2 := fun h => ignoredBits_of_opcode_le_four (by omega)
  have := imm8.isLt
  rw [encodeI_toNat op rd imm8 (by omega), Fin.ext_iff, ← BitVec.toNat_inj, regFieldA_val, immField_toNat]
  omega

theorem eq_encodeR_add_ignoredBits_iff {op : Nat} (hop : op < 5) (rd rs1 rs2 : RegIdx) :
    w.toNat = (encodeR op rd rs1 rs2).toNat + ignoredBits w ↔
      w.toNat / 8192 = op ∧ regFieldC w = rd ∧ regFieldA w = rs1 ∧ regFieldB w = rs2 := by
  have hle := ignoredBits_le w
  have hig : w.toNat / 8192 = op → ignoredBits w = w.toNat % 2 := fun h => ignoredBits_of_opcode_le_four (by omega)
  rw [encodeR_toNat op rd rs1 rs2 (by omega), Fin.ext_iff, Fin.ext_iff, Fin.ext_iff, regFieldA_val, regFieldB_val,
    regFieldC_val]
  omega

theorem eq_encodeS_add_ignoredBits_iff {op : Nat} (hop : op = 5 ∨ op = 6) (r : RegIdx) :
    w.toNat = (encodeS op r).toNat + ignoredBits w ↔ w.toNat / 8192 = op ∧ regFieldA w = r := by
  have hle := ignoredBits_le w
  have hig : w.toNat / 8192 = op → ignoredBits w = w.toNat % 512 := fun h => ignoredBits_of_opcode_five_or_six (by omega)
  rw [encodeS_toNat op r (by omega), Fin.ext_iff, regFieldA_val]
  omega

theorem eq_encodeB_add_ignoredBits_iff (ra rb : RegIdx) (g : Target) :
    w.toNat = (encodeB 7 ra rb g).toNat + ignoredBits w ↔
      w.toNat / 8192 = 7 ∧ regFieldA w = ra ∧ regFieldB w = rb ∧ targetField w = g := by
  have hle := ignoredBits_le w
  have hig : w.toNat / 8192 = 7 → ignoredBits w = 0 := ignoredBits_of_opcode_seven
  have := g.isLt
  rw [encodeB_toNat 7 ra rb g (by decide), Fin.ext_iff, Fin.ext_iff, ← BitVec.toNat_inj, regFieldA_val, regFieldB_val,
    targetField_toNat]
  omega

/-- The law of the encoding (R58, R61): a word decodes to an instruction exactly when it is that instruction's encoded word
with the word's own ignored bits added. -/
theorem decode_eq_ok_iff (i : Instr) : decode w = .ok i ↔ w.toNat = (encode i).toNat + ignoredBits w := by
  constructor
  · intro h
    rcases decode_cases w with ⟨hop, hd⟩ | ⟨hop, hd⟩ | ⟨hop, hd⟩ | ⟨hop, hd⟩ | ⟨hop, hd⟩ | ⟨hop, hd⟩ | ⟨hop, hd⟩ |
      ⟨hop, hd⟩ <;> cases hd.symm.trans h
    · exact (eq_encodeI_add_ignoredBits_iff w (by decide) _ _).2 ⟨hop, rfl, rfl⟩
    · exact (eq_encodeR_add_ignoredBits_iff w (by decide) _ _ _).2 ⟨hop, rfl, rfl, rfl⟩
    · exact (eq_encodeR_add_ignoredBits_iff w (by decide) _ _ _).2 ⟨hop, rfl, rfl, rfl⟩
    · exact (eq_encodeR_add_ignoredBits_iff w (by decide) _ _ _).2 ⟨hop, rfl, rfl, rfl⟩
    · exact (eq_encodeR_add_ignoredBits_iff w (by decide) _ _ _).2 ⟨hop, rfl, rfl, rfl⟩
    · exact (eq_encodeS_add_ignoredBits_iff w (.inl rfl) _).2 ⟨hop, rfl⟩
    · exact (eq_encodeS_add_ignoredBits_iff w (.inr rfl) _).2 ⟨hop, rfl⟩
    · exact (eq_encodeB_add_ignoredBits_iff w _ _ _).2 ⟨hop, rfl, rfl, rfl⟩
  · intro h
    cases i with
    | loadi rd imm8 =>
      obtain ⟨hop, rfl, rfl⟩ := (eq_encodeI_add_ignoredBits_iff w (by decide) rd imm8).1 h
      exact decode_loadi hop
    | add rd rs1 rs2 =>
      obtain ⟨hop, rfl, rfl, rfl⟩ := (eq_encodeR_add_ignoredBits_iff w (by decide) rd rs1 rs2).1 h
      exact decode_add hop
    | and rd rs1 rs2 =>
      obtain ⟨hop, rfl, rfl, rfl⟩ := (eq_encodeR_add_ignoredBits_iff w (by decide) rd rs1 rs2).1 h
      exact decode_and hop
    | or rd rs1 rs2 =>
      obtain ⟨hop, rfl, rfl, rfl⟩ := (eq_encodeR_add_ignoredBits_iff w (by decide) rd rs1 rs2).1 h
      exact decode_or hop
    | xor rd rs1 rs2 =>
      obtain ⟨hop, rfl, rfl, rfl⟩ := (eq_encodeR_add_ignoredBits_iff w (by decide) rd rs1 rs2).1 h
      exact decode_xor hop
    | print r =>
      obtain ⟨hop, rfl⟩ := (eq_encodeS_add_ignoredBits_iff w (.inl rfl) r).1 h
      exact decode_print hop
    | read r =>
      obtain ⟨hop, rfl⟩ := (eq_encodeS_add_ignoredBits_iff w (.inr rfl) r).1 h
      exact decode_read hop
    | blt ra rb g =>
      obtain ⟨hop, rfl, rfl, rfl⟩ := (eq_encodeB_add_ignoredBits_iff w ra rb g).1 h
      exact decode_blt hop

theorem decode_encode (i : Instr) : decode (encode i) = .ok i :=
  (decode_eq_ok_iff _ i).2 (by rw [ignoredBits_encode, Nat.add_zero])

section
variable {w} {v : Word}

/-- Re-encoding drops the ignored bits and nothing else. -/
theorem encode_eq_iff_ignoredBits {i : Instr} (h : decode w = .ok i) : encode i = w ↔ ignoredBits w = 0 := by
  have hw := (decode_eq_ok_iff w i).1 h
  rw [← BitVec.toNat_inj]
  omega

/-- Two words equal up to their own ignored bits decode alike. -/
theorem decode_congr (h : v.toNat - ignoredBits v = w.toNat - ignoredBits w) : decode v = decode w := by
  obtain ⟨i, hv, _⟩ := exists_decode v
  have hw : decode w = .ok i := by
    have := ignoredBits_le w
    have := (decode_eq_ok_iff v i).1 hv
    exact (decode_eq_ok_iff w i).2 (by omega)
  rw [hv, hw]

end

/-! ### Byte sequences (R34, R68) -/

theorem decodeBytes_of_decode {hi lo : Byte} {i : Instr} (rest : List Byte) (h : decode (wordOfBytes hi lo) = .ok i) :
    decodeBytes (hi :: lo :: rest) = .ok (i, rest) := by
  simp only [decodeBytes, h]

theorem decodeBytes_encodeBytes (i : Instr) : decodeBytes (encodeBytes i) = .ok (i, []) :=
  decodeBytes_of_decode [] (by rw [wordOfBytes_bytes, decode_encode])

/-! ### The obligations -/

/-- Settles O1: the encoded word is its own word with no ignored bit set. -/
theorem decodeEncodeRoundTrip : Obligations.DecodeEncodeRoundTrip := decode_encode

/-- Settles O2: re-encoding clears the ignored bits, which are `w[0:0]`, `w[8:0]` or none by the opcode. -/
theorem reencodeExactlyWhenIgnoredBitsZero : Obligations.ReencodeExactlyWhenIgnoredBitsZero := by
  intro w i hd
  have hiff := encode_eq_iff_ignoredBits hd
  refine ⟨fun h => ?_, fun h => ?_, fun h => ?_⟩
  · rw [hiff, ignoredBits_of_opcode_le_four h]
  · rw [hiff, ignoredBits_of_opcode_five_or_six h]
  · exact hiff.2 (ignoredBits_of_opcode_seven h)

/-- Settles O3: the opcode is the quotient by 2^13, of which 2^8 is taken by the first byte. -/
theorem opcodeIsTopThreeBits : Obligations.OpcodeIsTopThreeBits := by
  intro w
  refine ⟨extractBits_eq_extractLsb w 0 2 _, extractBits_opcode w, ?_⟩
  rw [extractBits_opcode, highByte_toNat, Nat.div_div_eq_div_mul]

/-- Settles O4, by the eight cases of the decoder. -/
theorem everyWordDecodesToItsOpcode : Obligations.EveryWordDecodesToItsOpcode := by
  intro w
  rw [extractBits_opcode]
  exact exists_decode w

/-- Settles O5: each field of the decoder is the slice the rule names, opcode by opcode. -/
theorem fieldLayoutsOfAllFormats : Obligations.FieldLayoutsOfAllFormats := by
  intro w
  rw [← regFieldA_eq_slice, ← regFieldB_eq_slice, ← regFieldC_eq_slice, ← immField_eq_slice, ← targetField_eq_slice]
  exact ⟨fun h => decode_loadi (opcode_of_slice w h), fun h => decode_add (opcode_of_slice w h),
    fun h => decode_and (opcode_of_slice w h), fun h => decode_or (opcode_of_slice w h),
    fun h => decode_xor (opcode_of_slice w h), fun h => decode_print (opcode_of_slice w h),
    fun h => decode_read (opcode_of_slice w h), fun h => decode_blt (opcode_of_slice w h)⟩

/-- Settles O6: both conditions leave the words equal up to their ignored bits. -/
theorem ignoredBitsDoNotDecode : Obligations.IgnoredBitsDoNotDecode := by
  refine fun v w => ⟨fun hv hvw => decode_congr ?_, fun hv hvw => decode_congr ?_⟩
  · rw [ignoredBits_of_opcode_le_four hv, ignoredBits_of_opcode_le_four (w := w) (by omega)]
    omega
  · rw [ignoredBits_of_opcode_five_or_six hv, ignoredBits_of_opcode_five_or_six (w := w) (by omega)]
    omega

/-- Settles O7: a mask of `b - a + 1` bits after a shift by `15 - b`, read bit by bit. -/
theorem extractorReadsMsbNumberedBits : Obligations.ExtractorReadsMsbNumberedBits :=
  ⟨fun w a b h => ⟨rfl, extractBits_lt w a b h, fun _ => testBit_extractBits w h⟩, extractBits_single, extractBits_whole⟩

/-- Settles O8: the encoder's sums stay below 2^16, so the words are the sums themselves. -/
theorem encoderWritesTheTabledWord : Obligations.EncoderWritesTheTabledWord := by
  refine ⟨fun rd imm8 => ?_, fun rd rs1 rs2 => ?_, fun rd rs1 rs2 => ?_, fun rd rs1 rs2 => ?_, fun rd rs1 rs2 => ?_,
    fun r => ?_, fun r => ?_, fun ra rb g => ?_, fun i => ?_, fun hi lo rest i => decodeBytes_of_decode rest,
    decodeBytes_encodeBytes⟩
  · simp [encode]
  · exact encodeR_toNat 1 rd rs1 rs2 (by decide)
  · exact encodeR_toNat 2 rd rs1 rs2 (by decide)
  · exact encodeR_toNat 3 rd rs1 rs2 (by decide)
  · exact encodeR_toNat 4 rd rs1 rs2 (by decide)
  · exact encodeS_toNat 5 r (by decide)
  · exact encodeS_toNat 6 r (by decide)
  · exact encodeB_toNat 7 ra rb g (by decide)
  · simp [encodeBytes]

end Sys2Proof
end

section
/-! SUPPORT. The disassembly pass: one line for each instruction of a loaded image, in ascending order. -/

namespace Sys2Proof.Machine

/-- Line `k` of a pass over `m` from byte `offset` on is the line of the instruction at `offset + 2k` (R66, R67). -/
def ListsInstrs (m : Memory) (offset count : Nat) (lines : List String) : Prop :=
  lines.length = count ∧ ∀ k, k < count → ∃ w i, m.readWord (offset + 2 * k) = some w ∧ decode w = .ok i ∧
    lines[k]? = some (disasmLine (offset + 2 * k) i)

/-- One instruction of the pass: its line, then the lines of what follows. -/
theorem disassembleFrom_succ {m : Memory} {offset count : Nat} {w : Word} {i : Instr} {rest : List String}
    (hw : m.readWord offset = some w) (hd : decode w = .ok i) (hrest : disassembleFrom m (offset + 2) count = .ok rest) :
    disassembleFrom m offset (count + 1) = .ok (disasmLine offset i :: rest) := by
  simp only [disassembleFrom, Config.instrBytes, hw, hd, hrest]

theorem listsInstrs_cons {m : Memory} {offset count : Nat} {w : Word} {i : Instr} {rest : List String}
    (hw : m.readWord offset = some w) (hd : decode w = .ok i) (hrest : ListsInstrs m (offset + 2) count rest) :
    ListsInstrs m offset (count + 1) (disasmLine offset i :: rest) := by
  obtain ⟨hlen, hlines⟩ := hrest
  refine ⟨congrArg Nat.succ hlen, fun k hk => ?_⟩
  cases k with
  | zero => exact ⟨w, i, hw, hd, rfl⟩
  | succ k =>
    have haddr : offset + 2 * (k + 1) = offset + 2 + 2 * k := by omega
    rw [haddr, List.getElem?_cons_succ]
    exact hlines k (Nat.lt_of_succ_lt_succ hk)

/-- Where every word has a value the pass completes, since every word decodes (R57). -/
theorem disassembleFrom_lists (m : Memory) (offset count : Nat)
    (hwords : ∀ k, k < count → ∃ w, m.readWord (offset + 2 * k) = some w) :
    ∃ lines, disassembleFrom m offset count = .ok lines ∧ ListsInstrs m offset count lines := by
  induction count generalizing offset with
  | zero => exact ⟨[], rfl, rfl, fun k hk => absurd hk (Nat.not_lt_zero k)⟩
  | succ count ih =>
    obtain ⟨w, hw⟩ := hwords 0 (Nat.succ_pos count)
    obtain ⟨i, hd, _⟩ := exists_decode w
    obtain ⟨rest, hrest, hlists⟩ := ih (offset + 2) fun k hk => by
      have haddr : offset + 2 + 2 * k = offset + 2 * (k + 1) := by omega
      rw [haddr]
      exact hwords (k + 1) (Nat.succ_lt_succ hk)
    exact ⟨_, disassembleFrom_succ hw hd hrest, listsInstrs_cons hw hd hlists⟩

/-- Settles O45, by induction on the instructions still to list; every byte of the image has a value, so every word has. -/
theorem disassemblyListsEveryInstruction : Obligations.DisassemblyListsEveryInstruction := by
  intro s hload
  obtain ⟨lines, hok, hlen, hlines⟩ := disassembleFrom_lists s.mem 0 s.icount.toNat fun k hk =>
    readWord_of_loaded hload (by omega) (by omega)
  simp only [Nat.zero_add] at hlines
  exact ⟨lines, hok, hlen, hlines⟩

end Sys2Proof.Machine
end

section
/-! SUPPORT. Fetch, decode, execute: what an execute phase can touch, the step as one execute phase on an issued word, and the
invariant kept by every step. -/

namespace Sys2Proof.Machine

/-! ### The frame of the execute phase (R74, R79), one lemma per piece of state -/

/-- The register an instruction writes, where it writes one (R79): none for PRINT and BLT. -/
def destination : Instr → Option RegIdx
  | .loadi rd _ | .add rd _ _ | .and rd _ _ | .or rd _ _ | .xor rd _ _ | .read rd => some rd
  | .print _ | .blt _ _ _ => none

section
variable {i : Instr} {s t : State} (h : exec i s = .next t)
include h

theorem exec_commonFrame : CommonFrame s t := by
  rcases exec_next_cases i s t h with ⟨_, _, rfl, _⟩ | ⟨_, _, rfl⟩ | ⟨_, _, _, _, rfl⟩ | ⟨_, _, _, rfl⟩ |
    ⟨_, _, _, rfl⟩ | ⟨_, _, _, _, _, rfl⟩ | ⟨_, _, _, _, _, _, rfl⟩ | ⟨_, _, _, _, _, _, rfl⟩ <;>
    exact ⟨rfl, fun _ => rfl, rfl, rfl, rfl⟩

theorem exec_readReg_of_ne_destination {r : RegIdx} (hr : destination i ≠ some r) : t.readReg r = s.readReg r := by
  rcases exec_next_cases i s t h with ⟨rd, v, rfl, hi⟩ | ⟨_, _, rfl⟩ | ⟨rd, _, rfl, _, rfl⟩ | ⟨_, _, _, rfl⟩ |
    ⟨_, _, _, rfl⟩ | ⟨_, _, _, _, _, rfl⟩ | ⟨_, _, _, _, _, _, rfl⟩ | ⟨_, _, _, _, _, _, rfl⟩
  case inl =>
    have hd : destination i = some rd := by
      rcases hi with ⟨_, rfl⟩ | ⟨_, _, rfl⟩ | ⟨_, _, rfl⟩ | ⟨_, _, rfl⟩ | ⟨_, _, rfl⟩ <;> rfl
    exact State.readReg_writeReg_other s rd r v fun e => hr (e ▸ hd)
  case inr.inr.inl => exact State.readReg_writeReg_other s.consumeInput rd r _ fun e => hr (e ▸ rfl)
  all_goals rfl

theorem exec_regsSameBut {rd : RegIdx} (hd : destination i = some rd) : RegsSameBut rd s t := fun _ hne =>
  exec_readReg_of_ne_destination h fun e => hne (Option.some.inj (e.symm.trans hd))

theorem exec_regsSame (hd : destination i = none) : RegsSame s t := fun _ =>
  exec_readReg_of_ne_destination h (by simp [hd])

theorem exec_exists_regsSameBut : ∃ rd, RegsSameBut rd s t := by
  cases hd : destination i with
  | none => exact ⟨0, fun r _ => exec_regsSame h hd r⟩
  | some rd => exact ⟨rd, exec_regsSameBut h hd⟩

theorem exec_fkind_cases : t.fkind = s.fkind ∨ t.status = .faulted := by
  rcases exec_next_cases i s t h with ⟨_, _, rfl, _⟩ | ⟨_, _, rfl⟩ | ⟨_, _, _, _, rfl⟩ | ⟨_, _, _, rfl⟩ |
    ⟨_, _, _, rfl⟩ | ⟨_, _, _, _, _, rfl⟩ | ⟨_, _, _, _, _, _, rfl⟩ | ⟨_, _, _, _, _, _, rfl⟩ <;> simp

theorem exec_out_cases : t.out = s.out ∨ ∃ r, i = .print r ∧ t.out = s.out ++ [s.readReg r] := by
  rcases exec_next_cases i s t h with ⟨_, _, rfl, _⟩ | ⟨r, hi, rfl⟩ | ⟨_, _, _, _, rfl⟩ | ⟨_, _, _, rfl⟩ | ⟨_, _, _, rfl⟩ |
    ⟨_, _, _, _, _, rfl⟩ | ⟨_, _, _, _, _, _, rfl⟩ | ⟨_, _, _, _, _, _, rfl⟩
  case inr.inl => exact .inr ⟨r, hi, rfl⟩
  all_goals exact .inl rfl

theorem exec_incur_cases : t.incur = s.incur ∨ ∃ r, i = .read r ∧ t.incur = s.incur + 1 := by
  rcases exec_next_cases i s t h with ⟨_, _, rfl, _⟩ | ⟨_, _, rfl⟩ | ⟨r, _, hi, _, rfl⟩ | ⟨_, _, _, rfl⟩ | ⟨_, _, _, rfl⟩ |
    ⟨_, _, _, _, _, rfl⟩ | ⟨_, _, _, _, _, _, rfl⟩ | ⟨_, _, _, _, _, _, rfl⟩
  case inr.inr.inl => exact .inr ⟨r, hi, rfl⟩
  all_goals exact .inl rfl

/-- How an execute phase ends: at `pc + 2`, at a BLT's target, or with `pc` standing on a fault or in a wait. -/
theorem exec_ends : RetiresAt s t (s.pc + 2) ∨ (∃ ra rb g, i = .blt ra rb g ∧ RetiresAt s t (targetAddress g)) ∨
    (t.pc = s.pc ∧ (t.status = .faulted ∨ t.status = .executing)) := by
  rcases exec_next_cases i s t h with ⟨_, _, rfl, _⟩ | ⟨_, _, rfl⟩ | ⟨_, _, _, _, rfl⟩ | ⟨_, _, _, rfl⟩ |
    ⟨_, _, _, rfl⟩ | ⟨_, _, _, _, _, rfl⟩ | ⟨ra, rb, g, hi, _, _, rfl⟩ | ⟨_, _, _, _, _, _, rfl⟩
  · exact .inl (retire_retiresAt s _ _ rfl)
  · exact .inl (retire_retiresAt s _ _ rfl)
  · exact .inl (retire_retiresAt s _ _ rfl)
  · exact .inr (.inr ⟨rfl, .inl rfl⟩)
  · exact .inr (.inr ⟨rfl, .inr rfl⟩)
  · exact .inr (.inr ⟨rfl, .inl rfl⟩)
  · exact .inr (.inl ⟨ra, rb, g, hi, retire_retiresAt s s _ rfl⟩)
  · exact .inl (retire_retiresAt s s _ rfl)

theorem exec_retiresAt (hf : t.status ≠ .faulted) (he : t.status ≠ .executing) : RetiresAt s t t.pc := by
  rcases exec_ends h with hr | ⟨_, _, _, _, hr⟩ | ⟨_, hst | hst⟩
  · exact hr.pc ▸ hr
  · exact hr.pc ▸ hr
  · exact absurd hst hf
  · exact absurd hst he

end

/-- A retired instruction leaves exactly one of the two statuses, by the halt test at the new `pc` (R75). -/
theorem retiresAt_status_iff {s t : State} {p : Word} (h : RetiresAt s t p) :
    (t.status = .halted ↔ 2 * s.icount.toNat ≤ p.toNat) ∧ (t.status = .fetching ↔ p.toNat < 2 * s.icount.toNat) := by
  rcases Nat.lt_or_ge p.toNat (2 * s.icount.toNat) with hlt | hge
  · simp [h.goesOn hlt, hlt]
  · simp [h.halts hge, hge]

/-! ### The step as one execute phase (R70, R77) -/

/-- The state an execute phase starts from: the word in `ir`, the engine `Executing`. -/
def State.issue (s : State) (w : Word) : State := { s with ir := w, status := .executing }

/-- `w` is the word the engine runs next: fetched at an even `pc` below the halt bound, or held by a wait (R71, R94). -/
structure NextWord (s : State) (w : Word) : Prop where
  running : s.status = .fetching ∨ s.status = .executing
  fetched : s.status = .fetching →
    s.pc.toNat % 2 = 0 ∧ s.pc.toNat < 2 * s.icount.toNat ∧ s.mem.readWord s.pc.toNat = some w
  held : s.status = .executing → w = s.ir

/-- Every word decodes, so the engine's execute phase is an instruction's. -/
theorem execIr_eq_exec (s : State) : ∃ i, decode s.ir = .ok i ∧ execIr s = exec i s := by
  obtain ⟨i, hd, _⟩ := exists_decode s.ir
  exact ⟨i, hd, execIr_of_ok hd⟩

theorem issue_ir_of_executing {s : State} (hs : s.status = .executing) : s.issue s.ir = s := by
  rw [State.issue, ← hs]

/-- A step that answers a next state is the execute phase of the word the engine runs next. -/
theorem step_next_exec {s t : State} (h : step s = .next t) :
    ∃ w i, NextWord s w ∧ decode w = .ok i ∧ exec i (s.issue w) = .next t := by
  obtain ⟨_, ⟨hs, u, hf, hx⟩ | ⟨hs, hx⟩⟩ := step_next_cases s t h
  · obtain ⟨heven, hb, w, hw, rfl⟩ := (fetch_ok_iff s u).1 hf
    obtain ⟨i, hd, hexec⟩ := execIr_eq_exec (s.issue w)
    exact ⟨w, i, ⟨.inl hs, fun _ => ⟨heven, hb, hw⟩, by simp [hs]⟩, hd, hexec.symm.trans hx⟩
  · obtain ⟨i, hd, hexec⟩ := execIr_eq_exec s
    refine ⟨s.ir, i, ⟨.inr hs, by simp [hs], fun _ => rfl⟩, hd, ?_⟩
    rw [issue_ir_of_executing hs, ← hexec, hx]

/-! ### The invariant through an execute phase (R82) -/

/-- What the invariant says of a state whose word in `ir` is about to be executed. -/
structure Issued (u : State) : Prop where
  countLegal : u.icount.toNat ≤ 16
  pcEven : u.pc.toNat % 2 = 0
  pcBelow : u.pc.toNat < 2 * u.icount.toNat
  noFault : u.fkind = none
  irAtPc : u.mem.readWord u.pc.toNat = some u.ir
  cursor : u.incur ≤ u.input.length
  memWf : u.mem.wf = true
  loaded : ∀ a : Nat, a < 2 * u.icount.toNat → (u.mem.read a).isSome = true

theorem inv_fkind_eq_none {s : State} (hi : Inv s) (hs : s.status ≠ .faulted) : s.fkind = none := by
  by_contra hne
  exact hs (hi.faultedExactly.2 hne)

theorem issued_of_inv {s : State} {w : Word} (hi : Inv s) (hw : NextWord s w) : Issued (s.issue w) := by
  have hat : s.pc.toNat < 2 * s.icount.toNat ∧ s.mem.readWord s.pc.toNat = some w := by
    rcases hw.running with hs | hs
    · exact (hw.fetched hs).2
    · exact ⟨hi.executingBelow hs, hw.held hs ▸ hi.irAtPc (.inl hs)⟩
  have hnf : s.fkind = none := inv_fkind_eq_none hi (by rcases hw.running with hs | hs <;> simp [hs])
  exact ⟨hi.countLegal, hi.pcEven, hat.1, hnf, hat.2, hi.cursor, hi.memWf, hi.loaded⟩

section
variable {u : State} (hu : Issued u)
include hu

theorem issued_writeReg (r : RegIdx) (v : Byte) : Issued (u.writeReg r v) := { hu with }

theorem issued_emit (v : Byte) : Issued (u.emit v) := { hu with }

/-- A value answered was listed at the cursor, so one more item is within the list. -/
theorem issued_consumeInput {n : Int} (ha : u.askInput = .value n) : Issued u.consumeInput := by
  have hlt : u.incur < u.input.length := by
    rcases askInput_cases u with ⟨_, hg, _⟩ | ⟨_, ha'⟩ | ⟨_, _, ha'⟩ | ⟨_, _, ha'⟩
    · exact (List.getElem?_eq_some_iff.1 hg).1
    all_goals cases ha'.symm.trans ha
  exact { hu with cursor := hlt }

theorem inv_retire {p : Word} (heven : p.toNat % 2 = 0) (hle : p.toNat ≤ 32) : Inv (u.retire p) where
  countLegal := hu.countLegal
  pcEven := heven
  pcBound := hle
  fetchingBelow := by simp
  executingBelow := by simp
  haltedAbove := by simp
  faultedExactly := by simp [hu.noFault]
  waitingRead := by simp
  irAtPc := by simp
  cursor := hu.cursor
  memWf := hu.memWf
  loaded := hu.loaded

theorem issued_pc_le : u.pc.toNat ≤ 30 := by
  have := hu.countLegal
  have := hu.pcEven
  have := hu.pcBelow
  omega

/-- The default next address is even and at most the 32 of a full memory. -/
theorem inv_retire_seqPc : Inv (u.retire u.seqPc) := by
  have hle := issued_pc_le hu
  have hpc := seqPc_toNat u hle
  have heven := hu.pcEven
  exact inv_retire hu (by omega) (by omega)

theorem inv_retire_target {g : Target} (heven : g.toNat % 2 = 0) : Inv (u.retire (targetAddress g)) := by
  have := g.isLt
  exact inv_retire hu (by simpa using heven) (by rw [targetAddress_toNat]; omega)

theorem inv_raiseFault (k : FaultKind) : Inv (u.raiseFault k) where
  countLegal := hu.countLegal
  pcEven := hu.pcEven
  pcBound := (issued_pc_le hu).trans (by decide)
  fetchingBelow := by simp
  executingBelow := by simp
  haltedAbove := by simp
  faultedExactly := by simp
  waitingRead := by simp
  irAtPc := fun _ => hu.irAtPc
  cursor := hu.cursor
  memWf := hu.memWf
  loaded := hu.loaded

theorem inv_waitForInput {r : RegIdx} (hd : decode u.ir = .ok (.read r)) : Inv u.waitForInput where
  countLegal := hu.countLegal
  pcEven := hu.pcEven
  pcBound := (issued_pc_le hu).trans (by decide)
  fetchingBelow := by simp
  executingBelow := fun _ => hu.pcBelow
  haltedAbove := by simp
  faultedExactly := by simp [hu.noFault]
  waitingRead := fun _ => ⟨r, hd⟩
  irAtPc := fun _ => hu.irAtPc
  cursor := hu.cursor
  memWf := hu.memWf
  loaded := hu.loaded

theorem inv_exec {i : Instr} {t : State} (hd : decode u.ir = .ok i) (h : exec i u = .next t) : Inv t := by
  rcases exec_next_cases i u t h with ⟨rd, v, rfl, _⟩ | ⟨r, _, rfl⟩ | ⟨r, n, _, ha, rfl⟩ | ⟨_, _, _, rfl⟩ |
    ⟨r, rfl, _, rfl⟩ | ⟨_, _, _, _, _, rfl⟩ | ⟨_, _, g, _, heven, _, rfl⟩ | ⟨_, _, _, _, _, _, rfl⟩
  · exact inv_retire_seqPc (issued_writeReg hu rd v)
  · exact inv_retire_seqPc (issued_emit hu _)
  · exact inv_retire_seqPc (issued_writeReg (issued_consumeInput hu ha) r _)
  · exact inv_raiseFault hu .inputExhausted
  · exact inv_waitForInput hu hd
  · exact inv_raiseFault hu .misalignedBranch
  · exact inv_retire_target hu heven
  · exact inv_retire_seqPc hu

end

/-! ### The obligations -/

/-- Settles O43: the invariant holds what an execute phase needs, and every way it ends meets the invariant again. -/
theorem stepKeepsInvariant : Obligations.StepKeepsInvariant := by
  intro s t hi h
  obtain ⟨w, i, hw, hd, hx⟩ := step_next_exec h
  exact inv_exec (issued_of_inv hi hw) hd hx

/-- Settles O28: what neither faults nor waits retires, and the halt test at the new `pc` names the status. -/
theorem haltTestDecidesTheNextStatus : Obligations.HaltTestDecidesTheNextStatus :=
  fun _ _ _ h hf he => retiresAt_status_iff (exec_retiresAt h hf he)

/-- Settles O29: the step is the execute phase of the word that `ir` holds afterwards, and takes over its frame. -/
theorem iterationTouchesOnlyItsOwn : Obligations.IterationTouchesOnlyItsOwn := by
  intro s t h
  obtain ⟨w, i, hw, hd, hx⟩ := step_next_exec h
  obtain ⟨(hir : t.ir = w), hmem, hicount, hinput, hend⟩ := exec_commonFrame hx
  have hregs := exec_exists_regsSameBut hx
  have hfk := exec_fkind_cases hx
  refine ⟨hmem, hicount, hinput, hend, hregs, hfk, fun hs => hir ▸ (hw.fetched hs).2.2,
    fun hs => hir.trans (hw.held hs), fun j hj => ?_⟩
  obtain rfl : i = j := Except.ok.inj (hd.symm.trans (hir ▸ hj))
  refine ⟨?_, ?_, ?_, ?_, fun hne => ?_, fun hne => ?_, fun hne => ?_⟩
  · rintro rd imm8 rfl
    exact exec_regsSameBut hx rfl
  · rintro rd a b (rfl | rfl | rfl | rfl) <;> exact exec_regsSameBut hx rfl
  · rintro r rfl
    exact exec_regsSameBut hx rfl
  · rintro (⟨r, rfl⟩ | ⟨ra, rb, g, rfl⟩) <;> exact exec_regsSame (s := s.issue w) hx rfl
  · exact (exec_out_cases hx).resolve_right fun ⟨r, hp, _⟩ => hne r hp
  · exact (exec_incur_cases hx).resolve_right fun ⟨r, hr, _⟩ => hne r hr
  · rcases exec_ends hx with hr | ⟨ra, rb, g, hb, _⟩ | hstands
    · exact .inl hr.pc
    · exact absurd hb (hne ra rb g)
    · exact .inr hstands

/-- Settles O33: only PRINT appends, one value; only READ consumes, one item. -/
theorem sinkOnlyGrowsCursorOnlyAdvances : Obligations.SinkOnlyGrowsCursorOnlyAdvances := by
  intro s t h
  obtain ⟨w, i, _, _, hx⟩ := step_next_exec h
  exact ⟨(exec_out_cases hx).imp_right fun ⟨r, _, hout⟩ => ⟨s.readReg r, hout⟩,
    (exec_incur_cases hx).imp_right fun ⟨_, _, hincur⟩ => hincur⟩

/-- Settles O11: the two bytes make the word of a fetch that succeeds, and the engine runs what it decodes to. -/
theorem stepRunsTheFetchedInstruction : Obligations.StepRunsTheFetchedInstruction := by
  intro s hi lo i hc hs heven hb hhi hlo hd
  have hw : s.mem.readWord s.pc.toNat = some (wordOfBytes hi lo) :=
    (s.mem.readWord_eq_some _ _).2 ⟨hi, lo, hhi, hlo, rfl⟩
  rw [step_of_fetch_ok hc hs (fetch_of_readWord heven hb hw)]
  exact execIr_of_ok hd

/-- Settles O12: a step in `Executing` goes straight to the word in `ir`. -/
theorem stepResumesTheHeldInstruction : Obligations.StepResumesTheHeldInstruction :=
  fun _ _ hc hs hd => (step_of_executing hc hs).trans (execIr_of_ok hd)

/-- Settles O13, by the step's equation for each of the two terminal statuses. -/
theorem terminalStatesHaveNoStep : Obligations.TerminalStatesHaveNoStep :=
  fun _ hc => ⟨step_of_halted hc, step_of_faulted hc⟩

/-- Settles O46: a step with a next state starts in `Fetching` or `Executing`. -/
theorem noStepLeavesHaltedOrFaulted : Obligations.NoStepLeavesHaltedOrFaulted := by
  intro s t hs h
  obtain ⟨w, i, hw, _, _⟩ := step_next_exec h
  rcases hs with hs | hs <;> simpa [hs] using hw.running

end Sys2Proof.Machine
end

section
/-! SUPPORT. LOADI, and what it shares with the other instructions that write one register: the two words of an instruction with
one ignored bit, and the completion after a register write. -/

namespace Sys2Proof

/-! ### The two words of formats I and R (R58) -/

theorem encode_toNat_div_eq_opcode (i : Instr) : (encode i).toNat / 8192 = i.opcode := by
  obtain ⟨j, hd, hop⟩ := exists_decode (encode i)
  obtain rfl : i = j := Except.ok.inj ((decode_encode i).symm.trans hd)
  exact hop.symm

theorem encode_toNat_even {i : Instr} (hop : i.opcode ≤ 4) : (encode i).toNat % 2 = 0 := by
  rw [← ignoredBits_of_opcode_le_four (encode_toNat_div_eq_opcode i ▸ hop), ignoredBits_encode]

/-- The encoded word is even, so adding the ignored bit neither carries nor overflows. -/
theorem decode_encode_add_ignoredBit {i : Instr} (hop : i.opcode ≤ 4) {b : Nat} (hb : b < 2) :
    decode (BitVec.ofNat 16 ((encode i).toNat + b)) = .ok i := by
  have heven := encode_toNat_even hop
  have hword : (BitVec.ofNat 16 ((encode i).toNat + b)).toNat = (encode i).toNat + b := by
    rw [BitVec.toNat_ofNat]
    omega
  have hsame : decode (encode i) = decode (BitVec.ofNat 16 ((encode i).toNat + b)) :=
    (ignoredBitsDoNotDecode _ _).1 (encode_toNat_div_eq_opcode i ▸ hop) (by omega)
  exact hsame.symm.trans (decode_encode i)

end Sys2Proof

namespace Sys2Proof.Machine

/-! ### Completion after a register write (R74, R79) -/

section
variable (s : State) (rd : RegIdx) (v : Byte)

theorem regsSameBut_writeReg_retire (p : Word) : RegsSameBut rd s ((s.writeReg rd v).retire p) :=
  fun r hne => State.readReg_writeReg_other s rd r v hne

theorem quietFrame_writeReg_retire (p : Word) : QuietFrame s ((s.writeReg rd v).retire p) :=
  ⟨⟨rfl, fun _ => rfl, rfl, rfl, rfl⟩, rfl, rfl, rfl⟩

end

/-! ### The obligation -/

/-- Settles O15: LOADI's word leaves one bit ignored, and its execute phase is one register write, then the default `pc`. -/
theorem loadiWritesImmediate : Obligations.LoadiWritesImmediate := by
  intro rd imm8 s
  have hword : (encode (.loadi rd imm8)).toNat = rd.val * 512 + imm8.toNat * 2 := encoderWritesTheTabledWord.1 rd imm8
  refine ⟨fun b hb => ?_, (s.writeReg rd imm8).retire s.seqPc, rfl, ?_, ?_, ?_, ?_⟩
  · rw [← hword]
    exact decode_encode_add_ignoredBit (i := .loadi rd imm8) (Nat.zero_le 4) hb
  · rw [State.retire_readReg, State.readReg_writeReg_same]
  · exact regsSameBut_writeReg_retire s rd imm8 s.seqPc
  · exact quietFrame_writeReg_retire s rd imm8 s.seqPc
  · exact retire_retiresAt s _ s.seqPc rfl

end Sys2Proof.Machine
end

section
/-! SUPPORT. ADD, AND, OR, XOR: one completion lemma for whatever combines the two sources, and what each of the four combines them
to. -/

namespace Sys2Proof

/-- The two words of a format R instruction (R52, R58): the ignored bit is 0 or 1. -/
theorem decode_formatR_words {i : Instr} {op : Nat} {rd rs1 rs2 : RegIdx} (hop : op ≤ 4)
    (hi : encode i = encodeR op rd rs1 rs2) {b : Nat} (hb : b < 2) :
    decode (BitVec.ofNat 16 (op * 8192 + rs1.val * 512 + rs2.val * 32 + rd.val * 2 + b)) = .ok i := by
  have hword : (encode i).toNat = op * 8192 + rs1.val * 512 + rs2.val * 32 + rd.val * 2 :=
    hi ▸ encodeR_toNat op rd rs1 rs2 (Nat.lt_of_le_of_lt hop (by decide))
  have hopcode : i.opcode ≤ 4 := by
    rw [← encode_toNat_div_eq_opcode, hword]
    omega
  rw [← hword]
  exact decode_encode_add_ignoredBit hopcode hb

end Sys2Proof

namespace Sys2Proof.Machine

/-! ### What the four combine two bytes to (R87 to R90) -/

section
variable (a b : Byte)

theorem aluAdd_toNat : (aluAdd a b).toNat = (a.toNat + b.toNat) % 256 := by
  rw [aluAdd, BitVec.toNat_ofNat, Nat.mod_mod]

theorem aluAnd_getLsbD_iff (k : Nat) : (aluAnd a b).getLsbD k = true ↔ a.getLsbD k = true ∧ b.getLsbD k = true := by
  rw [aluAnd, BitVec.getLsbD_and, Bool.and_eq_true]

theorem aluOr_getLsbD_iff (k : Nat) : (aluOr a b).getLsbD k = true ↔ a.getLsbD k = true ∨ b.getLsbD k = true := by
  rw [aluOr, BitVec.getLsbD_or, Bool.or_eq_true]

theorem aluXor_getLsbD_iff (k : Nat) : (aluXor a b).getLsbD k = true ↔ a.getLsbD k ≠ b.getLsbD k := by
  rw [aluXor, BitVec.getLsbD_xor, Bool.xor_iff_ne]

end

/-! ### Completion (R74, R79, R86) -/

/-- Both sources are read from the old state, so `rd` may be either of them. -/
theorem execAlu_completes (op : Byte → Byte → Byte) (rd rs1 rs2 : RegIdx) (s : State) :
    ∃ t, execAlu op rd rs1 rs2 s = .next t ∧ t.readReg rd = op (s.readReg rs1) (s.readReg rs2) ∧
      RegsSameBut rd s t ∧ QuietFrame s t ∧ RetiresAt s t (s.pc + 2) := by
  refine ⟨(s.writeReg rd (op (s.readReg rs1) (s.readReg rs2))).retire s.seqPc, rfl, ?_, ?_, ?_, ?_⟩
  · rw [State.retire_readReg, State.readReg_writeReg_same]
  · exact regsSameBut_writeReg_retire s rd _ s.seqPc
  · exact quietFrame_writeReg_retire s rd _ s.seqPc
  · exact retire_retiresAt s _ s.seqPc rfl

/-! ### The obligations -/

/-- Settles O16: `aluAdd` is the sum modulo 256 as a number. -/
theorem addWritesSumModulo256 : Obligations.AddWritesSumModulo256 := by
  intro rd rs1 rs2 s
  obtain ⟨t, hx, hrd, hrest⟩ := execAlu_completes aluAdd rd rs1 rs2 s
  refine ⟨fun b hb => decode_formatR_words (op := 1) (by decide) rfl hb, t, hx, ?_, hrest⟩
  rw [hrd, aluAdd_toNat]

/-- Settles O17: bit `k` of `aluAnd` is the conjunction of the bits `k`. -/
theorem andCombinesBitByBit : Obligations.AndCombinesBitByBit := by
  intro rd rs1 rs2 s
  obtain ⟨t, hx, hrd, hrest⟩ := execAlu_completes aluAnd rd rs1 rs2 s
  refine ⟨fun b hb => decode_formatR_words (op := 2) (by decide) rfl hb, t, hx, fun k _ => ?_, hrest⟩
  rw [hrd, aluAnd_getLsbD_iff]

/-- Settles O18: bit `k` of `aluOr` is the disjunction of the bits `k`. -/
theorem orCombinesBitByBit : Obligations.OrCombinesBitByBit := by
  intro rd rs1 rs2 s
  obtain ⟨t, hx, hrd, hrest⟩ := execAlu_completes aluOr rd rs1 rs2 s
  refine ⟨fun b hb => decode_formatR_words (op := 3) (by decide) rfl hb, t, hx, fun k _ => ?_, hrest⟩
  rw [hrd, aluOr_getLsbD_iff]

/-- Settles O19: bit `k` of `aluXor` is set exactly where the bits `k` differ. -/
theorem xorCombinesBitByBit : Obligations.XorCombinesBitByBit := by
  intro rd rs1 rs2 s
  obtain ⟨t, hx, hrd, hrest⟩ := execAlu_completes aluXor rd rs1 rs2 s
  refine ⟨fun b hb => decode_formatR_words (op := 4) (by decide) rfl hb, t, hx, fun k _ => ?_, hrest⟩
  rw [hrd, aluXor_getLsbD_iff]

end Sys2Proof.Machine
end

section
/-! SUPPORT. PRINT and READ: the words of PRINT, what the input source answers, each way a READ ends, and what lifts its wait. -/

namespace Sys2Proof

/-- The 512 words of PRINT: the register, and any nine ignored bits (R53, R58). -/
theorem decode_print_words (r : RegIdx) {b : Nat} (hb : b < 512) :
    decode (BitVec.ofNat 16 (0xA000 + r.val * 512 + b)) = .ok (.print r) := by
  have hword : (BitVec.ofNat 16 (0xA000 + r.val * 512 + b)).toNat = 0xA000 + r.val * 512 + b := by
    rw [BitVec.toNat_ofNat]
    omega
  have hfield : regFieldA (BitVec.ofNat 16 (0xA000 + r.val * 512 + b)) = r := by
    rw [Fin.ext_iff, regFieldA_val, hword]
    omega
  rw [decode_print (by omega), hfield]

end Sys2Proof

namespace Sys2Proof.Machine

/-! ### The input source (R24, R93, R95) -/

section
variable {s : State}

theorem askInput_of_value {n : Int} (h : s.input[s.incur]? = some (.value n)) : s.askInput = .value n := by
  simp only [State.askInput, h]

theorem askInput_of_exhausted
    (h : s.input[s.incur]? = some .malformed ∨ (s.input[s.incur]? = none ∧ s.inputEnd = .exhausted)) :
    s.askInput = .exhausted := by
  rcases h with h | ⟨h, he⟩
  · simp only [State.askInput, h]
  · simp only [State.askInput, h, he]

theorem askInput_of_unanswered (h : s.input[s.incur]? = none) (he : s.inputEnd = .unanswered) :
    s.askInput = .unanswered := by
  simp only [State.askInput, h, he]

theorem deliver_of_unanswered (item : InputItem) (he : s.inputEnd = .unanswered) :
    s.deliver item = { s with input := s.input ++ [item] } := by
  simp only [State.deliver, he]

end

/-- The low 8 bits of an integer of any size and sign are its remainder in 0 to 255 (D7). -/
theorem truncateToByte_toNat (n : Int) : ((truncateToByte n).toNat : Int) = n % 256 := by
  rw [truncateToByte, BitVec.toNat_ofInt]
  exact Int.toNat_of_nonneg (Int.emod_nonneg n (by decide))

/-! ### The ways a READ ends (R93 to R95) -/

theorem standsStill_raiseFault (s : State) (k : FaultKind) : StandsStill s (s.raiseFault k) :=
  ⟨⟨rfl, fun _ => rfl, rfl, rfl, rfl⟩, fun _ => rfl, rfl, rfl, rfl⟩

theorem standsStill_waitForInput (s : State) : StandsStill s s.waitForInput :=
  ⟨⟨rfl, fun _ => rfl, rfl, rfl, rfl⟩, fun _ => rfl, rfl, rfl, rfl⟩

/-- The wait changes nothing in a state that waits already (log 5). -/
theorem waitForInput_of_executing {s : State} (hs : s.status = .executing) : s.waitForInput = s := by
  rw [State.waitForInput, ← hs]

theorem execRead_completes (r : RegIdx) {s : State} {n : Int} (h : s.input[s.incur]? = some (.value n)) :
    ∃ t, exec (.read r) s = .next t ∧ ((t.readReg r).toNat : Int) = n % 256 ∧ RegsSameBut r s t ∧ CommonFrame s t ∧
      t.fkind = s.fkind ∧ t.out = s.out ∧ t.incur = s.incur + 1 ∧ RetiresAt s t (s.pc + 2) := by
  have hx : exec (.read r) s = .next ((s.consumeInput.writeReg r (truncateToByte n)).retire s.seqPc) :=
    execRead_of_value r (askInput_of_value h)
  refine ⟨_, hx, ?_, exec_regsSameBut hx rfl, exec_commonFrame hx, rfl, rfl, rfl, retire_retiresAt s _ s.seqPc rfl⟩
  rw [State.retire_readReg, State.readReg_writeReg_same, truncateToByte_toNat]

/-! ### The obligations -/

/-- Settles O20: PRINT's word leaves nine bits ignored, and its execute phase is one emission, then the default `pc`. -/
theorem printAppendsRegister : Obligations.PrintAppendsRegister := by
  intro r s
  have hx : exec (.print r) s = .next ((s.emit (s.readReg r)).retire s.seqPc) := rfl
  exact ⟨fun _ hb => decode_print_words r hb, _, hx, rfl, exec_regsSame hx rfl, exec_commonFrame hx, rfl, rfl,
    retire_retiresAt s _ s.seqPc rfl⟩

/-- Settles O22: in both cases the source answers `Exhausted`, and the fault writes `status` and `fkind` only. -/
theorem readFaultsWhenInputExhausted : Obligations.ReadFaultsWhenInputExhausted := fun r s h =>
  ⟨s.raiseFault .inputExhausted, execRead_of_exhausted r (askInput_of_exhausted h), rfl, rfl, standsStill_raiseFault s _⟩

/-- Settles O23: the wait writes `status` only. -/
theorem readWaitsWhileUnanswered : Obligations.ReadWaitsWhileUnanswered := fun r s h he =>
  ⟨s.waitForInput, execRead_of_unanswered r (askInput_of_unanswered h he), rfl, rfl, standsStill_waitForInput s⟩

/-- Settles O24: whatever the source has become, the step is the held READ's execute phase, which ends by the source's
answer; delivery and close leave the rest of the state as it was. -/
theorem waitIsLiftedByTheSourceOnly : Obligations.WaitIsLiftedByTheSourceOnly := by
  intro s r hc hs hd hcur he
  have hnone : s.input[s.incur]? = none := List.getElem?_eq_none hcur.ge
  have hresume (input : List InputItem) (e : InputEnd) :
      step { s with input := input, inputEnd := e } = exec (.read r) { s with input := input, inputEnd := e } :=
    stepResumesTheHeldInstruction _ _ hc hs hd
  refine ⟨?_, fun n => ?_, ?_, ?_⟩
  · have hwait : exec (.read r) s = .next s.waitForInput :=
      execRead_of_unanswered r (askInput_of_unanswered hnone he)
    rw [waitForInput_of_executing hs] at hwait
    exact (hresume s.input s.inputEnd).trans hwait
  · have hitem := deliver_at_cursor s (.value n) hcur he
    rw [deliver_of_unanswered _ he] at hitem ⊢
    obtain ⟨t, hx, hval, hregs, _, _, _, hincur, hret⟩ := execRead_completes r hitem
    exact ⟨t, (hresume _ _).trans hx, hval, hregs, hincur, hret.pc, hret.halts, hret.goesOn⟩
  · have hitem := deliver_at_cursor s .malformed hcur he
    rw [deliver_of_unanswered _ he] at hitem ⊢
    obtain ⟨t, hx, hst, hfk, hstill⟩ := readFaultsWhenInputExhausted r _ (.inl hitem)
    exact ⟨t, (hresume _ _).trans hx, hst, hfk, hstill.pc, hstill.incur, hstill.out, hstill.regs⟩
  · obtain ⟨t, hx, hst, hfk, hstill⟩ := readFaultsWhenInputExhausted r s.closeInput (.inr ⟨hnone, rfl⟩)
    exact ⟨t, (hresume _ _).trans hx, hst, hfk, hstill.pc, hstill.incur, hstill.out, hstill.regs⟩

end Sys2Proof.Machine
end

section
/-! SUPPORT. BLT: the execute phase by the target's parity and the comparison, how a retired branch ends, and the branch to its
own address. -/

namespace Sys2Proof.Machine

/-! ### BLT's two tests as facts about numbers (R97, R98) -/

theorem targetIsOdd_iff (g : Target) : targetIsOdd g = true ↔ g.toNat % 2 = 1 := beq_iff_eq

theorem lessUnsigned_iff (a b : Byte) : lessUnsigned a b = true ↔ a.toNat < b.toNat := decide_eq_true_iff

/-! ### The execute phase, one equation per case -/

section
variable {ra rb : RegIdx} {g : Target} {s : State}

theorem exec_blt_of_odd (hodd : g.toNat % 2 = 1) :
    exec (.blt ra rb g) s = .next (s.raiseFault .misalignedBranch) :=
  execBlt_of_odd ra rb ((targetIsOdd_iff g).2 hodd)

section
variable (heven : g.toNat % 2 = 0)
include heven

theorem targetIsOdd_ne_true_of_even : targetIsOdd g ≠ true := by
  rw [Ne, targetIsOdd_iff, heven]
  decide

theorem exec_blt_of_less (hl : (s.readReg ra).toNat < (s.readReg rb).toNat) :
    exec (.blt ra rb g) s = .next (s.retire (targetAddress g)) :=
  execBlt_of_less (targetIsOdd_ne_true_of_even heven) ((lessUnsigned_iff _ _).2 hl)

theorem exec_blt_of_not_less (hl : (s.readReg rb).toNat ≤ (s.readReg ra).toNat) :
    exec (.blt ra rb g) s = .next (s.retire s.seqPc) :=
  execBlt_of_not_less (targetIsOdd_ne_true_of_even heven) (mt (lessUnsigned_iff _ _).1 (Nat.not_lt.2 hl))

end

end

/-- An iteration that only writes `pc` leaves everything else as it was (R74, R75, R79). -/
theorem retire_completes (s : State) (p : Word) :
    RegsSame s (s.retire p) ∧ QuietFrame s (s.retire p) ∧ RetiresAt s (s.retire p) p :=
  ⟨fun _ => rfl, ⟨⟨rfl, fun _ => rfl, rfl, rfl, rfl⟩, rfl, rfl, rfl⟩, retire_retiresAt s s p rfl⟩

theorem targetAddress_eq_ofNat (g : Target) : targetAddress g = BitVec.ofNat 16 g.toNat := (BitVec.ofNat_toNat 16 g).symm

/-! ### A taken branch to its own address (R83, R97) -/

theorem core_run_succ {s t : State} (k : Nat) (h : step s = .next t) : core.run (k + 1) s = core.run k t := by
  have hcore : core.step s = .next t := h
  simp only [Host.Core.run, hcore]

section
variable {s : State} {w : Word} (hc : s.icount.toNat ≤ 16) (hs : s.status = .fetching) (heven : s.pc.toNat % 2 = 0)
  (hb : s.pc.toNat < 2 * s.icount.toNat) (hw : s.mem.readWord s.pc.toNat = some w)
include hc hs heven hb hw

theorem step_of_readWord {i : Instr} (hd : decode w = .ok i) : step s = exec i (s.issue w) := by
  rw [step_of_fetch_ok hc hs (fetch_of_readWord heven hb hw)]
  exact execIr_of_ok hd

/-- The branch writes back the `pc` it was fetched from, where the halt test lets the engine go on: only `ir` can differ. -/
theorem step_of_taken_self_branch {ra rb : RegIdx} {g : Target} (hd : decode w = .ok (.blt ra rb g))
    (hg : g.toNat = s.pc.toNat) (hl : (s.readReg ra).toNat < (s.readReg rb).toNat) :
    step s = .next { s with ir := w } := by
  have htarget : targetAddress g = s.pc := BitVec.eq_of_toNat_eq ((targetAddress_toNat g).trans hg)
  have hgoes : haltTest s.haltBound s.pc = s.status := hs ▸ (haltTest_eq_fetching_iff _ _).2 hb
  have hback : (s.issue w).retire s.pc = { s with ir := w } := congrArg (fun st => { s with ir := w, status := st }) hgoes
  have htaken : exec (.blt ra rb g) (s.issue w) = .next ((s.issue w).retire (targetAddress g)) :=
    exec_blt_of_less (hg ▸ heven) hl
  rw [step_of_readWord hc hs heven hb hw hd, htaken, htarget, hback]

end

/-! ### The obligations -/

/-- Settles O36, by induction on the number of steps: the state after one step meets every hypothesis again. -/
theorem takenSelfBranchNeverEnds : Obligations.TakenSelfBranchNeverEnds := by
  intro s w ra rb g k hc hs heven hb hw hd hg hl
  induction k generalizing s with
  | zero => exact ⟨s, rfl, rfl, hs, fun _ => rfl, rfl⟩
  | succ k ih =>
    have hstep := step_of_taken_self_branch hc hs heven hb hw hd hg hl
    obtain ⟨t, hrun, hpc, hst, hregs, hout⟩ := ih { s with ir := w } hc hs heven hb hw hg hl
    exact ⟨t, (core_run_succ k hstep).trans hrun, hpc, hst, hregs, hout⟩

/-- Settles O25: the branch retires at the zero-extended target. -/
theorem bltTakenLandsOnTarget : Obligations.BltTakenLandsOnTarget := by
  intro ra rb g s heven hl
  rw [← targetAddress_eq_ofNat]
  exact ⟨_, exec_blt_of_less heven hl, targetAddress_toNat g, retire_completes s (targetAddress g)⟩

/-- Settles O26: the branch retires at the default next address. -/
theorem bltNotTakenFallsThrough : Obligations.BltNotTakenFallsThrough := fun _ _ _ s heven hl =>
  ⟨_, exec_blt_of_not_less heven hl, retire_completes s s.seqPc⟩

/-- Settles O27: the word is the encoder's, and the alignment check comes before the comparison. -/
theorem bltOddTargetAlwaysFaults : Obligations.BltOddTargetAlwaysFaults := fun ra rb g s hodd =>
  ⟨decode_encode (.blt ra rb g), _, exec_blt_of_odd hodd, rfl, rfl, standsStill_raiseFault s .misalignedBranch⟩

end Sys2Proof.Machine
end

section
/-! SUPPORT. The faults a step can take and what they leave (60_exceptions.md R102 to R109), and the loader by length of file
(R119). -/

namespace Sys2Proof

variable {w : Word}

theorem opcode_of_decode {i : Instr} (hd : decode w = .ok i) : i.opcode = w.toNat / 8192 := by
  obtain ⟨j, hj, hop⟩ := exists_decode w
  obtain rfl : i = j := Except.ok.inj (hd.symm.trans hj)
  exact hop

/-- A decoded BLT's target is the word's low five bits (R54). -/
theorem target_of_decode_blt {ra rb : RegIdx} {g : Target} (hd : decode w = .ok (.blt ra rb g)) : g.toNat = w.toNat % 32 := by
  have hfields := (decode_blt (opcode_of_decode hd).symm).symm.trans hd
  obtain ⟨-, -, rfl⟩ := Instr.blt.inj (Except.ok.inj hfields)
  exact targetField_toNat w

end Sys2Proof

namespace Sys2Proof.Machine

/-! ### The faults of an execute phase and of a step (R104, R105, R108) -/

theorem askInput_eq_exhausted_iff (s : State) : s.askInput = .exhausted ↔
    s.input[s.incur]? = some .malformed ∨ (s.input[s.incur]? = none ∧ s.inputEnd = .exhausted) := by
  refine ⟨fun h => ?_, askInput_of_exhausted⟩
  rcases askInput_cases s with ⟨_, _, ha⟩ | ⟨hbad, _⟩ | ⟨hnone, hend, _⟩ | ⟨_, _, ha⟩
  · cases ha.symm.trans h
  · exact .inl hbad
  · exact .inr ⟨hnone, hend⟩
  · cases ha.symm.trans h

/-- Of all an execute phase can do, two ways take a fault: what retires leaves the halt test's status, and a wait `Executing`. -/
theorem exec_fault_cases {i : Instr} {s t : State} (h : exec i s = .next t) (hf : t.status = .faulted) :
    (∃ ra rb g, i = .blt ra rb g ∧ g.toNat % 2 = 1 ∧ t = s.raiseFault .misalignedBranch) ∨
    (∃ r, i = .read r ∧ s.askInput = .exhausted ∧ t = s.raiseFault .inputExhausted) := by
  rcases exec_next_cases i s t h with ⟨_, _, rfl, _⟩ | ⟨_, _, rfl⟩ | ⟨_, _, _, _, rfl⟩ | hread | ⟨_, _, _, rfl⟩ | hblt |
    ⟨_, _, _, _, _, _, rfl⟩ | ⟨_, _, _, _, _, _, rfl⟩
  case inr.inr.inr.inl => exact .inr hread
  case inr.inr.inr.inr.inr.inl => exact .inl hblt
  case inr.inr.inr.inr.inl => cases hf
  all_goals exact absurd hf (haltTest_ne_faulted _ _)

/-- `s` gives the word `w` cause for the fault `k`: the kinds and their sources (R104, R105); `InvalidOpcode` has none (R103). -/
def CausesFault (s : State) (w : Word) : FaultKind → Prop
  | .invalidOpcode => False
  | .misalignedBranch => w.toNat / 8192 = 7 ∧ w.toNat % 2 = 1
  | .inputExhausted => w.toNat / 8192 = 6 ∧
      (s.input[s.incur]? = some .malformed ∨ (s.input[s.incur]? = none ∧ s.inputEnd = .exhausted))

/-- A step that faults issues a word that has cause to, and then writes `status` and `fkind` only. -/
theorem step_fault_eq {s t : State} (h : step s = .next t) (hf : t.status = .faulted) :
    ∃ w k, t = (s.issue w).raiseFault k ∧ CausesFault s w k := by
  obtain ⟨w, i, _, hd, hx⟩ := step_next_exec h
  rcases exec_fault_cases hx hf with ⟨ra, rb, g, rfl, hodd, rfl⟩ | ⟨r, rfl, hask, rfl⟩
  · have htarget := target_of_decode_blt hd
    exact ⟨w, _, rfl, (opcode_of_decode hd).symm, by omega⟩
  · exact ⟨w, _, rfl, (opcode_of_decode hd).symm, (askInput_eq_exhausted_iff (s.issue w)).1 hask⟩

theorem step_fkind_cases {s t : State} (h : step s = .next t) : t.fkind = s.fkind ∨ t.status = .faulted := by
  obtain ⟨w, i, _, _, hx⟩ := step_next_exec h
  exact exec_fkind_cases (s := s.issue w) hx

/-! ### The loader, one equation per class of length (R119) -/

section
variable {bytes : List Byte}

theorem loadBytes_of_odd_of_long (hodd : bytes.length % 2 = 1) (hlong : 32 < bytes.length) :
    loadBytes bytes =
      .error (if Config.oddAndLongIsTruncated bytes then .truncatedInstruction else .tooManyInstructions) :=
  if_pos ⟨hodd, hlong⟩

theorem loadBytes_of_odd (hodd : bytes.length % 2 = 1) (hle : bytes.length ≤ 32) :
    loadBytes bytes = .error .truncatedInstruction :=
  (if_neg fun hboth => Nat.not_lt.2 hle hboth.2).trans (if_pos hodd)

section
variable (heven : bytes.length % 2 = 0)
include heven

theorem loadBytes_of_even : loadBytes bytes =
    if 32 < bytes.length then .error .tooManyInstructions
    else .ok (Memory.ofBytes bytes 0, BitVec.ofNat 5 (bytes.length / 2)) := by
  have hodd : ¬ bytes.length % 2 = 1 := by omega
  exact (if_neg fun hboth => hodd hboth.1).trans (if_neg hodd)

theorem loadBytes_of_long (hlong : 32 < bytes.length) : loadBytes bytes = .error .tooManyInstructions :=
  (loadBytes_of_even heven).trans (if_pos hlong)

theorem loadAndStart_of_even (input : List InputItem) (e : InputEnd) (hle : bytes.length ≤ 32) :
    loadAndStart bytes input e =
      .ok (State.start (Memory.ofBytes bytes 0) (BitVec.ofNat 5 (bytes.length / 2)) input e) := by
  have hload := (loadBytes_of_even heven).trans (if_neg (Nat.not_lt.2 hle))
  simp only [loadAndStart, hload]

end

end

/-- An image laid out from address 0 reads back as the list itself (R125). -/
theorem read_ofBytes_zero (bytes : List Byte) (a : Nat) : (Memory.ofBytes bytes 0).read a = bytes[a]? := by
  simp [Memory.read_ofBytes]

theorem ofBytes_zero_wf {bytes : List Byte} (hle : bytes.length ≤ 32) : (Memory.ofBytes bytes 0).wf = true :=
  Memory.ofBytes_wfFrom bytes 0 0 (Nat.le_refl 0) (by simpa [Config.memBytes] using hle)

/-! ### The obligations -/

/-- Settles O30: issuing a word and raising a fault write `ir`, `status` and `fkind` only. -/
theorem faultsArePrecise : Obligations.FaultsArePrecise := by
  intro s t h hf
  obtain ⟨w, k, rfl, _⟩ := step_fault_eq h hf
  exact ⟨fun _ => rfl, rfl, rfl, rfl, fun _ => rfl⟩

/-- Settles O31, by cases on the kind of the fault: each has its one cause, and `InvalidOpcode` has none. -/
theorem onlyOddBltAndExhaustedReadFault : Obligations.OnlyOddBltAndExhaustedReadFault := by
  intro s t h hf
  obtain ⟨w, k, rfl, hcause⟩ := step_fault_eq h hf
  refine ⟨rfl, rfl, ?_⟩
  cases k with
  | invalidOpcode => exact hcause.elim
  | misalignedBranch => exact .inl ⟨rfl, hcause⟩
  | inputExhausted => exact .inr ⟨rfl, hcause⟩

/-- Settles O32: a step that leaves no fault keeps `fkind`, and no word has cause for this one. -/
theorem invalidOpcodeIsNeverRaised : Obligations.InvalidOpcodeIsNeverRaised := by
  intro s t h hk
  rcases step_fkind_cases h with hsame | hf
  · exact hsame.symm.trans hk
  · obtain ⟨w, k, rfl, hcause⟩ := step_fault_eq h hf
    obtain rfl : k = .invalidOpcode := Option.some.inj hk
    exact hcause.elim

/-- Settles O41: the count of an image that fits is within 5 bits, and its halt bound is the image's length, so every byte
below it is loaded. -/
theorem loadedImageStartsInInvariant : Obligations.LoadedImageStartsInInvariant := by
  intro bytes input e heven hle
  have hcount : (BitVec.ofNat 5 (bytes.length / 2)).toNat = bytes.length / 2 := by
    rw [BitVec.toNat_ofNat]
    omega
  refine ⟨_, loadAndStart_of_even heven input e hle, hcount, read_ofBytes_zero bytes, rfl, rfl,
    inv_start input e (by omega) (ofBytes_zero_wf hle) fun a ha => ?_⟩
  rw [read_ofBytes_zero, List.getElem?_eq_getElem (by omega), Option.isSome_some]

/-- Settles O42: one equation of the loader for each class; the free value picks one of the two errors. -/
theorem loaderErrorsByLength : Obligations.LoaderErrorsByLength := by
  refine fun bytes => ⟨loadBytes_of_odd, loadBytes_of_long, fun hodd hlong => ?_⟩
  rw [loadBytes_of_odd_of_long hodd hlong]
  cases Config.oddAndLongIsTruncated bytes with
  | true => exact .inl rfl
  | false => exact .inr rfl

end Sys2Proof.Machine
end

section
/-! SUPPORT. Reset: the first fetch of a launched program (70_reset_and_hazards.md R124). -/

namespace Sys2Proof.Machine

/-! ### The obligation -/

/-- Settles O39: the start state has `pc = 0`, which is even, and below the halt bound once one instruction is loaded, so the
fetch there issues the word at address 0 and leaves `pc` alone. -/
theorem executionEntersAtAddressZero : Obligations.ExecutionEntersAtAddressZero := by
  intro m n input e w hcount hw
  have hbelow : (State.start m n input e).pc.toNat < 2 * (State.start m n input e).icount.toNat :=
    Nat.mul_pos Nat.two_pos hcount
  exact ⟨_, fetch_of_readWord rfl hbelow hw, rfl, rfl⟩

end Sys2Proof.Machine
end

section
/-! SUPPORT. What reset leaves, at launch and in mid-run (70_reset_and_hazards.md R122, R123), READ of an integer, and the eight
words written out. -/

namespace Sys2Proof.Machine

/-! ### Reset at launch is the reset event (R122, R123) -/

/-- With an instruction loaded, address 0 is below the halt bound (R75, R76). -/
theorem resetEvent_status_eq_fetching {s : State} (h : 1 ≤ s.icount.toNat) : s.resetEvent.status = .fetching :=
  (haltTest_eq_fetching_iff _ _).2 (Nat.mul_pos Nat.two_pos h)

/-- With no instruction loaded, the halt bound is 0 (D5). -/
theorem resetEvent_status_eq_halted {s : State} (h : s.icount.toNat = 0) : s.resetEvent.status = .halted :=
  (haltTest_eq_halted_iff _ _).2 (congrArg (2 * ·) h).le

/-- A launch is the reset event on the loaded but otherwise empty core. -/
theorem start_eq_resetEvent (m : Memory) (n : BitVec 5) (input : List InputItem) (e : InputEnd) :
    State.start m n input e =
      State.resetEvent { State.reset with mem := m, icount := n, input := input, inputEnd := e } := rfl

/-! ### The obligations -/

/-- Settles O9: each word is the tabled word of its instruction with the word's own ignored bits added. -/
theorem wordsWrittenOutDecode : Obligations.WordsWrittenOutDecode := by
  simp only [Obligations.WordsWrittenOutDecode, decode_eq_ok_iff]
  decide

/-- Settles O21: the source answers the integer, and its remainder is what the register takes. -/
theorem readStoresInputModulo256 : Obligations.ReadStoresInputModulo256 := fun r _ _ h => execRead_completes r h

/-- Settles O40: the registers are those of the reset state, and the halt test is made at address 0. -/
theorem resetEventRestoresTheCore : Obligations.ResetEventRestoresTheCore := fun _ =>
  ⟨State.reset_readReg, rfl, rfl, rfl, resetEvent_status_eq_fetching, resetEvent_status_eq_halted, fun _ => rfl, rfl⟩

/-- Settles O37: a launch leaves what the reset event leaves, and the sink and the cursor as the empty core has them. -/
theorem resetLeavesTheStatedValues : Obligations.ResetLeavesTheStatedValues := by
  intro m n input e
  rw [start_eq_resetEvent]
  obtain ⟨hregs, hpc, hir, hfk, hgo, hhalt, -, hcount⟩ :=
    resetEventRestoresTheCore { State.reset with mem := m, icount := n, input := input, inputEnd := e }
  exact ⟨hregs, hpc, hir, hfk, rfl, rfl, rfl, hcount, hgo, hhalt⟩

end Sys2Proof.Machine
end
